-- ==== Sys2Proof/Word.lean ====
section
/-! DEFINITION. The words of the block: bytes (R31), decoded values (R13, R58) and the encoder's
value input (R12). -/

namespace Sys2Proof

/-- The unit of every access: 8 bits, bit 7 the most significant (R31, 00_scope.md section 6). -/
abbrev Byte := BitVec 8

/-- A decoded Value, the decoder's 62-bit `value` port (R1, R13, R58). -/
abbrev Value := BitVec 62

/-- The encoder's 64-bit value input `v`, wider than a Value so that out-of-range inputs can be
presented (R12). -/
abbrev VIn := BitVec 64

end Sys2Proof
end

