-- ==== Sys2Proof/Syntax.lean ====
section
/-! DEFINITION. The instructions: one constructor per row of the opcode table (seven operations, the
reserved code, four wire forms), and the two slots in which an instruction can be presented. -/

namespace Sys2Proof

/-- The three units of the block (R3). -/
inductive CodecUnit where
  | enc
  | dec
  | lte
deriving DecidableEq, Repr

/-- The rows of the opcode table. An operation carries no operand: operands are on ports (R12, R13,
R18). A wire form carries the Value that its payload spells (R52), zero-extended to the 62 bits of
the `value` port; `WellFormed.lean` says which Values a form's payload can hold. -/
inductive Instr where
  /-- `LEN`, the encoded length of a value (R70). -/
  | len
  /-- `APPEND`, append a value's canonical encoding to a buffer (R80). -/
  | append
  /-- `PARSE`, decode the encoding at the start of a slice (R100). -/
  | parse
  /-- `PEEK`, `PARSE` without the consumed count (R105). -/
  | peek
  /-- `READ`, pull one encoding from a source (R110). -/
  | read
  /-- `WRITE`, push one encoding to a sink (R125). -/
  | write
  /-- `TAGLEN`, tag and declared length of a first byte (R90). -/
  | taglen
  /-- Operation code 7, which selects no operation (R60). -/
  | reservedOp7
  /-- Wire form of one byte, tag `00`, 6 payload bits (R50). -/
  | vi1 (v : Value)
  /-- Wire form of two bytes, tag `01`, 14 payload bits (R50). -/
  | vi2 (v : Value)
  /-- Wire form of four bytes, tag `10`, 30 payload bits (R50). -/
  | vi4 (v : Value)
  /-- Wire form of eight bytes, tag `11`, 62 payload bits (R50). -/
  | vi8 (v : Value)
deriving DecidableEq, Repr

/-- Where an instruction is presented: an operation code at a unit's 3-bit `op` port (R12, R13, R60),
or the bytes of an encoding at the decoder's slice port, which need no code (R53, R60; log entry 1). -/
inductive Slot where
  | command (unit : CodecUnit) (op : BitVec 3)
  | encoding (bytes : List Byte)
deriving DecidableEq, Repr

end Sys2Proof
end

