-- ==== Sys2Proof/Decode.lean ====
section
/-! DEFINITION. The wire format: the four functions every operation is stated through (R4: `lenOf`,
`taglen`, `enc`, `accumulate`), the decoder of the two slots, and the encoder. -/

namespace Sys2Proof

/-! ### Length of a value and tag of a byte -/

/-- `len_of` (R70): the shortest encoded length of a value, `none` for `OutOfRange`. -/
def lenOf (v : VIn) : Option Nat :=
  if v.toNat ≤ 63 then some 1
  else if v.toNat ≤ 16383 then some 2
  else if v.toNat ≤ 1073741823 then some 4
  else if v.toNat ≤ 4611686018427387903 then some 8
  else none

/-- `code_of` (R81): the length code, log2 of one of the four lengths. -/
def codeOf : Nat → Nat
  | 2 => 1
  | 4 => 2
  | 8 => 3
  | _ => 0

/-- `tag_of` (R90): bits 7:6 of a first byte. -/
def tagOf (b0 : Byte) : BitVec 2 := (b0 >>> 6).setWidth 2

/-- `taglen` (R90): the declared length, one shifted left by the tag. -/
def taglen (b0 : Byte) : Nat := 1 <<< (tagOf b0).toNat

/-! ### The encode function -/

/-- Byte `i` of the `L`-byte encoding of a value (R81): the tag over the top payload bits at index 0,
then the remaining bytes, most significant first. -/
def encByte (L : Nat) (v : VIn) : Nat → Byte
  | 0 => (BitVec.ofNat 8 (codeOf L) <<< 6) ||| (v >>> (8 * (L - 1))).setWidth 8
  | i + 1 => (v >>> (8 * (L - 1 - (i + 1)))).setWidth 8

/-- The encoding of a value in the form of `L` bytes (R52, R81). -/
def encBytes (L : Nat) (v : VIn) : List Byte := (List.range L).map (encByte L v)

/-- `enc` (R81): the canonical encoding; the empty list where there is none (R59). -/
def encOf (v : VIn) : List Byte :=
  match lenOf v with
  | some L => encBytes L v
  | none => []

/-- The `8L`-bit big-endian word of an encoding, as `ENC.hold` holds it (R81, R129). -/
def wireWord (L : Nat) (v : VIn) : BitVec 64 :=
  (BitVec.ofNat 64 (codeOf L) <<< (8 * L - 2)) ||| v

/-! ### The decode function -/

/-- Why a slice holds no whole encoding. -/
inductive Missing where
  /-- The slice is empty: there is no byte 0 (R101). -/
  | noBytes
  /-- The slice is shorter than the length its byte 0 declares (R102). -/
  | shortBytes
deriving DecidableEq, Repr

/-- Why a slot holds no instruction. -/
inductive Reject where
  /-- The encoding presented is not whole. -/
  | missing (m : Missing)
  /-- The operation code was presented to a unit that does not own it (R60). -/
  | notOwned
deriving DecidableEq, Repr

/-- The six payload bits of byte 0, which start an accumulation (R92, R100). -/
def accStart (b0 : Byte) : Value := (b0 &&& 0x3F#8).setWidth 62

/-- One further byte of an accumulation: earlier bytes are more significant (R100). -/
def accNext (acc : Value) (b : Byte) : Value := (acc <<< 8) ||| b.setWidth 62

/-- `accumulate` (R100): the Value of byte 0 and the bytes after it. -/
def accumulate (b0 : Byte) (rest : List Byte) : Value := rest.foldl accNext (accStart b0)

/-- `dec` (R100): the Value and the declared length of the encoding at the start of a slice. The
empty check comes first, then the length check (R104). -/
def decOf : List Byte → Except Missing (Value × Nat)
  | [] => .error .noBytes
  | b0 :: rest =>
    if rest.length + 1 < taglen b0 then .error .shortBytes
    else .ok (accumulate b0 (rest.take (taglen b0 - 1)), taglen b0)

/-! ### Decoding the two slots -/

/-- The operation a 3-bit code selects (R60). Every code is a row of the table. -/
def decodeOp (op : BitVec 3) : Instr :=
  match op.toNat with
  | 0 => .len
  | 1 => .append
  | 2 => .parse
  | 3 => .peek
  | 4 => .read
  | 5 => .write
  | 6 => .taglen
  | _ => .reservedOp7

/-- The unit that owns an instruction (R3, R60); the reserved code has none. -/
def Instr.unit : Instr → Option CodecUnit
  | .len => some .enc
  | .append => some .enc
  | .parse => some .dec
  | .peek => some .dec
  | .read => some .dec
  | .write => some .enc
  | .taglen => some .lte
  | .reservedOp7 => none
  | .vi1 _ => some .dec
  | .vi2 _ => some .dec
  | .vi4 _ => some .dec
  | .vi8 _ => some .dec

/-- The wire form of a declared length (R50), carrying a Value. -/
def wireForm (L : Nat) (v : Value) : Instr :=
  match L with
  | 1 => .vi1 v
  | 2 => .vi2 v
  | 4 => .vi4 v
  | _ => .vi8 v

/-- The instruction a slot presents. A code is decoded whatever unit it is presented to, and is
rejected if another unit owns it (R60); an encoding is decoded from its first byte alone, and bytes
after its last are no part of it (R53). -/
def decode : Slot → Except Reject Instr
  | .command u op =>
    if (decodeOp op).unit = some u ∨ (decodeOp op).unit = none then .ok (decodeOp op)
    else .error .notOwned
  | .encoding bytes =>
    match decOf bytes with
    | .ok (v, L) => .ok (wireForm L v)
    | .error m => .error (.missing m)

/-! ### The encoder -/

/-- The slot that presents an instruction: an operation's code at the port of the unit that owns it
(R60; the reserved code, which none owns, at the encoder's), a wire form's bytes (R50, R52). -/
def encode : Instr → Slot
  | .len => .command .enc 0#3
  | .append => .command .enc 1#3
  | .parse => .command .dec 2#3
  | .peek => .command .dec 3#3
  | .read => .command .dec 4#3
  | .write => .command .enc 5#3
  | .taglen => .command .lte 6#3
  | .reservedOp7 => .command .enc 7#3
  | .vi1 v => .encoding (encBytes 1 (v.setWidth 64))
  | .vi2 v => .encoding (encBytes 2 (v.setWidth 64))
  | .vi4 v => .encoding (encBytes 4 (v.setWidth 64))
  | .vi8 v => .encoding (encBytes 8 (v.setWidth 64))

/-! ### Words of the opcode table -/

/-- The `k` low bytes of a number, most significant first (R32). -/
def bigEndian : Nat → Nat → List Byte
  | 0, _ => []
  | k + 1, w => BitVec.ofNat 8 (w / 256 ^ k) :: bigEndian k w

/-- The slot of a word of the opcode table. A word of one byte below 8 is an operation code, at the
port of the unit that owns it; every other word is a wire form, laid out big-endian and followed by
zero bytes up to the longest form (log entry 2). -/
def tableSlot (nbits w : Nat) : Slot :=
  if nbits ≤ 8 ∧ w < 8 then
    .command ((decodeOp (BitVec.ofNat 3 w)).unit.getD .enc) (BitVec.ofNat 3 w)
  else
    .encoding (bigEndian ((nbits + 7) / 8) w ++ List.replicate (8 - (nbits + 7) / 8) 0#8)

/-- The instruction the decoder reads from a word of the opcode table. -/
def decodeTableWord (nbits w : Nat) : Option Instr :=
  match decode (tableSlot nbits w) with
  | .ok i => some i
  | .error _ => none

end Sys2Proof
end

