-- ==== Sys2Proof/Config.lean ====
section
/-! DEFINITION. What is fixed for the machine, and the free values: constants without a body, one
family for each thing the spec leaves unspecified. -/

namespace Sys2Proof.Config

/-- The capacity a destination buffer has unless the host says otherwise: unbounded (R37, D7). The
open parameter `BUF_CAP` itself is a field of the buffer handle, so that every capacity is covered. -/
def bufCapDefault : Option Nat := none

/-- `DEC.acc` after a reset or a `READ`: unspecified (R14, R20, U12). Free value, log entries 9, 18. -/
opaque freeAcc : Nat → BitVec 62

/-- `DEC.rem` after a reset or a `READ`: unspecified (R14, R20, U12). Free value, log entries 9, 18. -/
opaque freeRem : Nat → BitVec 3

/-- `ENC.hold` after a reset or a `WRITE`: unspecified (R15, R20, U12). Free value, log entries 9, 18. -/
opaque freeHold : Nat → BitVec 64

/-- `ENC.len` after a reset or a `WRITE`: unspecified (R15, R20, U12). Free value, log entries 9, 18. -/
opaque freeLen : Nat → BitVec 4

/-- `ENC.idx` after a reset or a `WRITE`: unspecified (R15, R20, U12). Free value, log entries 9, 18. -/
opaque freeIdx : Nat → Fin 8

/-- How many bytes of the encoding a reset that struck an `APPEND` let through: unspecified (R191,
U13). Used modulo one more than the encoding's length. Free value, log entry 10. -/
opaque freeCount : Nat → Nat

/-- The length field of the destination after a reset that struck an `APPEND`: unspecified (R191,
U13). Free value, log entry 10. -/
opaque freeDstLen : Nat → Nat

/-- The byte at an index of the destination that a reset which struck an `APPEND` left covered by
the length field but never written (R191, U13). Free value, log entry 10. -/
opaque freeByte : Nat → Nat → Byte

end Sys2Proof.Config
end

