-- ==== Sys2Proof/Machine/State.lean ====
section
/-! DEFINITION. The state: the registers of the two units, the ports, the four byte spaces, the
results delivered to the host, and what the host and the environment will do next. -/

namespace Sys2Proof.Machine

/-! ### What a source, a sink and an operation answer -/

/-- A failure reported by a source or sink, of the open type `IoErr` (R38, R39, D26). The block only
passes it on; a number per failure stands for the open type (log entry 5). -/
structure IoErr where
  code : Nat
deriving DecidableEq, Repr

/-- The answer to one pull (R38). -/
inductive PullAnswer where
  /-- The next byte; the source has moved past it. -/
  | byte (b : Byte)
  /-- The source has no further byte. -/
  | exhausted
  /-- Any other failure of the source. -/
  | fail (e : IoErr)
deriving DecidableEq, Repr

/-- The answer to one push (R39). -/
inductive PushAnswer where
  /-- The sink took the byte. -/
  | ok
  /-- The sink failed. -/
  | fail (e : IoErr)
deriving DecidableEq, Repr

/-- What a sink does at one push: its answer to the encoder, and, for the sink alone, whether it keeps
the byte of a push it fails (R39, U3; log entry 14). -/
structure SinkBeat where
  answer : PushAnswer
  keeps : Bool
deriving DecidableEq, Repr

/-- The `status` of an operation: exactly the five values of R160. -/
inductive Status where
  | ok
  | outOfRange
  | endOfStream
  | truncated
  | io (e : IoErr)
deriving DecidableEq, Repr

/-- The result of one operation on its unit's output ports (R12, R13, R18). A data output that carries
no value is absent (R168). -/
inductive Delivery where
  /-- `status` and `len` of the encoder. -/
  | enc (status : Status) (len : Option (BitVec 4))
  /-- `status`, `value` and `consumed` of the decoder. -/
  | dec (status : Status) (value : Option Value) (consumed : Option (BitVec 4))
  /-- `tag` and `len` of the extractor, which has no status and no failure. -/
  | lte (tag : BitVec 2) (len : BitVec 4)
deriving DecidableEq, Repr

/-! ### Registers of the units -/

/-- `DEC.phase` (R14). -/
inductive DecPhase where
  | idle
  | body
deriving DecidableEq, Repr

/-- The decoder's registers (R14). `reading` says that a `READ` is in flight, its pull not yet
answered (R114, R16; log entry 12). -/
structure DecRegs where
  reading : Bool
  phase : DecPhase
  acc : BitVec 62
  rem : BitVec 3
deriving DecidableEq, Repr

/-- `ENC.phase` (R15). -/
inductive EncPhase where
  | idle
  | pushing
deriving DecidableEq, Repr

/-- The encoder's registers (R15). `idx` is a natural number, as R129 asks (log entry 13). -/
structure EncRegs where
  phase : EncPhase
  hold : BitVec 64
  len : BitVec 4
  idx : Nat
deriving DecidableEq, Repr

/-! ### The byte spaces -/

/-- Bytes by index: strictly rising indices, no cell equal to what an unlisted index reads as
(`Memory.wf` in Ops.lean; log entry 17). -/
abbrev Memory := List Host.Cell

/-- A finite byte sequence given by its cells and its length (R30). -/
structure Space where
  cells : Memory
  len : Nat
deriving DecidableEq, Repr

/-- The destination buffer handed to `APPEND`, with its capacity `BUF_CAP`, `none` for unbounded
(R36, R37; log entry 6). -/
structure Buffer where
  space : Space
  cap : Option Nat
deriving DecidableEq, Repr

/-- Which space the slice port shows: one of its own, or the destination buffer (R46). -/
inductive SliceHandle where
  | own
  | dst
deriving DecidableEq, Repr

/-- The stream source (R38): the answers it has ready, first the next; the pulls issued to it; the
bytes it has given (R113; log entry 19). -/
structure Source where
  answers : List PullAnswer
  pulls : Nat
  taken : Nat
deriving DecidableEq, Repr

/-- The stream sink (R39): what it will do at the next pushes; the bytes pushed to it, in order; the
bytes it holds (R128; log entry 19). -/
structure Sink where
  beats : List SinkBeat
  offered : List Byte
  contents : List Byte
deriving DecidableEq, Repr

/-! ### The host -/

/-- A move of the host or of the environment (R175, R190, R191). -/
inductive Event where
  /-- The host presents a command or an encoding. -/
  | present (slot : Slot)
  /-- The host drives the encoder's value port. -/
  | driveV (v : VIn)
  /-- The host drives the extractor's byte port. -/
  | driveB0 (b : Byte)
  /-- The host hands over a slice, its cursor at the first byte. -/
  | giveSlice (bytes : List Byte)
  /-- The host hands over the destination buffer as the slice, its cursor at the first byte. -/
  | giveDstAsSlice
  /-- The host sets its cursor into the slice. -/
  | setCursor (c : Nat)
  /-- The host hands over a destination buffer. -/
  | giveDst (bytes : List Byte) (cap : Option Nat)
  /-- The host hands over a source, with the answers it already has ready. -/
  | giveSrc (answers : List PullAnswer)
  /-- The source gives its next answer. -/
  | srcAnswer (a : PullAnswer)
  /-- The host hands over a sink, with what it will do at its first pushes. -/
  | giveSnk (beats : List SinkBeat)
  /-- The sink gives its next answer. -/
  | snkAnswer (b : SinkBeat)
  /-- Reset, between operations or while a stream operation waits; with it, for the sink alone, whether
  it keeps the byte of a push still unanswered (R127, R191, U3; log entry 14). -/
  | reset (keeps : Bool)
  /-- Reset while an `APPEND` is being carried out. -/
  | resetInAppend
deriving DecidableEq, Repr

/-! ### The machine -/

/-- The machine and its surroundings. The block's own registers are `enc` and `dec`; `vPort` and
`b0Port` are input ports; the slice, the buffer, the source, the sink and the cursor are the
environment's (R11); `delivered` holds the results the host has received, oldest first (R168; log
entry 11). `inbox` and `draws` are the model's own: the moves to come (log entry 3), and the counter
the free values are applied to (log entry 9). -/
structure State where
  enc : EncRegs
  dec : DecRegs
  vPort : VIn
  b0Port : Byte
  slice : Space
  sliceHandle : SliceHandle
  cursor : Nat
  dst : Buffer
  src : Source
  snk : Sink
  delivered : List Delivery
  inbox : List Event
  draws : Nat
deriving DecidableEq, Repr

/-- There is no fault: the block has no trap and never aborts, every failure is a result (R168, R169),
and no access of it can fall outside a space (R33). -/
inductive Fault where
deriving DecidableEq, Repr

/-- What the model gives no meaning, where the spec says so. Each is safe: nothing can be proved of
what follows a refusal. -/
inductive Refusal where
  /-- Raised by an instruction that has no meaning yet. -/
  | notModelled (mnemonic : String)
  /-- Raised by operation code 7, which selects no operation (R60, U7). -/
  | reservedOpcode
  /-- Raised by a step whose command was presented to a unit that does not own it (R60, U7). -/
  | wrongUnit
  /-- Raised by a command presented to a busy unit (R16, U8). -/
  | busy (unit : CodecUnit)
  /-- Raised by an `APPEND` that would exceed the buffer's capacity (R37, U10). -/
  | bufferFull
  /-- Raised by the host's exchanging a source or a sink that an operation is using (R42, U9). -/
  | handleInUse
deriving DecidableEq, Repr

/-- The machine after reset: both units idle, nothing in flight, no result pending (R20, R190); the
registers R20 leaves unspecified at zero (log entry 7); ports at zero and every space empty, with
nothing ready at the source or the sink (log entry 8). -/
def State.reset : State where
  enc := { phase := .idle, hold := 0, len := 0, idx := 0 }
  dec := { reading := false, phase := .idle, acc := 0, rem := 0 }
  vPort := 0
  b0Port := 0
  slice := { cells := [], len := 0 }
  sliceHandle := .own
  cursor := 0
  dst := { space := { cells := [], len := 0 }, cap := Config.bufCapDefault }
  src := { answers := [], pulls := 0, taken := 0 }
  snk := { beats := [], offered := [], contents := [] }
  delivered := []
  inbox := []
  draws := 0

end Sys2Proof.Machine
end

