-- ==== Sys2Proof/Machine/Ops.lean ====
section
/-! DEFINITION. The named operations over the byte spaces and the units, among them the one operation
by which a failure is delivered. -/

namespace Sys2Proof.Machine

/-- The three outcomes of this machine's step. -/
abbrev Result := Host.Outcome State Fault Refusal

/-! ### Memory: one byte at an index -/

/-- What an index without a cell reads as. Only the representation rests on it: every index below a
space's length was written before (log entry 17). -/
def Memory.unlisted : Byte := 0

/-- The byte at an index (R33). -/
def Memory.read : Memory → Nat → Byte
  | [], _ => Memory.unlisted
  | (k, b) :: m, a => if k = a then b else Memory.read m a

/-- The memory without a cell at an index. -/
def Memory.erase : Memory → Nat → Memory
  | [], _ => []
  | (k, b) :: m, a => if k = a then Memory.erase m a else (k, b) :: Memory.erase m a

/-- The memory with a cell put before the first cell of a higher index. -/
def Memory.insert : Memory → Nat → Byte → Memory
  | [], a, b => [(a, b)]
  | (k, c) :: m, a, b => if a < k then (a, b) :: (k, c) :: m else (k, c) :: Memory.insert m a b

/-- Write a byte at an index (R33), keeping the canonical form. -/
def Memory.write (m : Memory) (a : Nat) (b : Byte) : Memory :=
  if b = Memory.unlisted then Memory.erase m a else Memory.insert (Memory.erase m a) a b

/-- Write bytes at rising indices, one access each (R31, R41). -/
def Memory.writeAll : Memory → Nat → List Byte → Memory
  | m, _, [] => m
  | m, a, b :: bs => Memory.writeAll (Memory.write m a b) (a + 1) bs

/-- Every cell's index is at least a bound. -/
def Memory.above (lo : Nat) (m : Memory) : Bool := m.all fun c => decide (lo ≤ c.1)

/-- The canonical form: indices strictly rising, no cell equal to what an unlisted index reads as. -/
def Memory.wf : Memory → Bool
  | [] => true
  | (k, b) :: m => decide (b ≠ Memory.unlisted) && Memory.above (k + 1) m && Memory.wf m

/-! ### Spaces: byte sequences with a length -/

/-- `MemRead` (R33): the byte at an index of the space, defined only below its length. -/
def Space.read (sp : Space) (i : Nat) : Option Byte :=
  if i < sp.len then some (Memory.read sp.cells i) else none

/-- The bytes of a space, index 0 first. -/
def Space.bytes (sp : Space) : List Byte := (List.range sp.len).map (Memory.read sp.cells)

/-- `MemWrite` at successive indices from the old end, then the new length (R36, R80). -/
def Space.append (sp : Space) (bs : List Byte) : Space where
  cells := Memory.writeAll sp.cells sp.len bs
  len := sp.len + bs.length

/-- The empty space. -/
def Space.empty : Space := { cells := [], len := 0 }

/-- The space that holds given bytes. -/
def Space.ofBytes (bs : List Byte) : Space := Space.append Space.empty bs

/-- The canonical form of a space: canonical cells, all below the length. -/
def Space.wf (sp : Space) : Bool := Memory.wf sp.cells && sp.cells.all fun c => decide (c.1 < sp.len)

/-! ### Updates of the state, one field each -/

/-- The state with other encoder registers. -/
def State.withEnc (s : State) (e : EncRegs) : State := { s with enc := e }

/-- The state with other decoder registers. -/
def State.withDec (s : State) (d : DecRegs) : State := { s with dec := d }

/-- The state with another value on the encoder's port. -/
def State.withVPort (s : State) (v : VIn) : State := { s with vPort := v }

/-- The state with another byte on the extractor's port. -/
def State.withB0Port (s : State) (b : Byte) : State := { s with b0Port := b }

/-- The state with another slice: a space of its own or the destination buffer, cursor at 0. -/
def State.withSlice (s : State) (h : SliceHandle) (sp : Space) : State :=
  { s with slice := sp, sliceHandle := h, cursor := 0 }

/-- The state with the host's cursor elsewhere. -/
def State.withCursor (s : State) (c : Nat) : State := { s with cursor := c }

/-- The state with another destination buffer. -/
def State.withDst (s : State) (d : Buffer) : State := { s with dst := d }

/-- The state with another source. -/
def State.withSrc (s : State) (x : Source) : State := { s with src := x }

/-- The state with another sink. -/
def State.withSnk (s : State) (x : Sink) : State := { s with snk := x }

/-- The state with other moves to come. -/
def State.withInbox (s : State) (es : List Event) : State := { s with inbox := es }

/-- The state after one draw of the free values. -/
def State.draw (s : State) : State := { s with draws := s.draws + 1 }

/-- The decoder's registers outside a `READ`: idle, nothing in flight; `acc` and `rem` are not defined
there (R14, R20, U12), so they hold free values (log entries 9, 18). -/
def State.idleDec (s : State) : DecRegs where
  reading := false
  phase := .idle
  acc := Config.freeAcc s.draws
  rem := Config.freeRem s.draws

/-- The encoder's registers outside a `WRITE`: idle; `hold`, `len` and `idx` are not defined there (R15,
R20, U12), so they hold free values (log entries 9, 18). -/
def State.idleEnc (s : State) : EncRegs where
  phase := .idle
  hold := Config.freeHold s.draws
  len := Config.freeLen s.draws
  idx := (Config.freeIdx s.draws).val

/-! ### Delivering a result -/

/-- Deliver a result to the host (R168, R201): it is handed over, not kept in the unit (R10, R17). -/
def State.deliver (s : State) (d : Delivery) : State := { s with delivered := s.delivered ++ [d] }

/-- TAKING A FAILURE, the block's only exception (R168): the operation of a unit ends with a status in
place of `OK` and every data output absent. No vector, no saved state, no mode (R168); nothing to
acknowledge and no return from it (R169). The extractor has no failure (R18). -/
def State.raise (s : State) (u : CodecUnit) (k : Status) : State :=
  match u with
  | .enc => s.deliver (.enc k none)
  | .dec => s.deliver (.dec k none none)
  | .lte => s

/-! ### Busy units -/

/-- The encoder is busy from a `WRITE`'s first push to its result (R15, R16). -/
def State.encBusy (s : State) : Bool := s.enc.phase == .pushing

/-- The decoder is busy while a `READ` is in flight (R14, R16). -/
def State.decBusy (s : State) : Bool := s.dec.reading

/-- Accept a command at the encoder, unless it is busy (R16). -/
def State.atEnc (s : State) (f : State → Result) : Result :=
  if s.encBusy then .refused (.busy .enc) else f s

/-- Accept a command at the decoder, unless it is busy (R16). -/
def State.atDec (s : State) (f : State → Result) : Result :=
  if s.decBusy then .refused (.busy .dec) else f s

end Sys2Proof.Machine
end

