-- ==== Sys2Proof/Machine/Operands.lean ====
section
/-! DEFINITION. The operands: the slice as the decoder sees it, and the 4-bit rendering of a length. The
value port and the byte port are read as `vPort` and `b0Port`. -/

namespace Sys2Proof.Machine

/-- The space the slice port shows (R30, R46). While it shows the destination and the host hands over
another destination buffer, the spec is silent: the slice is the new buffer, at the cursor as it
stood (DESIGN CHOICE, log entry 22). -/
def State.sliceSpace (s : State) : Space :=
  match s.sliceHandle with
  | .own => s.slice
  | .dst => s.dst.space

/-- The slice operand: the bytes from the host's cursor on (R44, R193). A cursor past the end, where the
spec knows no suffix, shows the empty slice, so that `PARSE` and `PEEK` deliver `EndOfStream`
(DESIGN CHOICE, log entry 21). -/
def State.sliceBytes (s : State) : List Byte := s.sliceSpace.bytes.drop s.cursor

/-- A length on a 4-bit port (R12, R13, R18). -/
def lenPort (L : Nat) : BitVec 4 := BitVec.ofNat 4 L

/-- Whether a buffer has room for further bytes (R37). -/
def Buffer.hasRoom (d : Buffer) (n : Nat) : Bool :=
  match d.cap with
  | none => true
  | some c => decide (d.space.len + n ≤ c)

end Sys2Proof.Machine
end

