-- ==== Sys2Proof/Machine/Flags.lean ====
section
/-! DEFINITION. The block has no flags (R17); what stands in their place is the `status` of one
operation, part of its result: its 3-bit code, and the results that carry `OK`. -/

namespace Sys2Proof.Machine

/-- The code on the 3-bit `status` port (R160). -/
def Status.code : Status → BitVec 3
  | .ok => 0
  | .outOfRange => 1
  | .endOfStream => 2
  | .truncated => 3
  | .io _ => 4

/-- The failure kind of a slice that holds no whole encoding: `EndOfStream` when it is empty (R101),
`Truncated` when it is short (R102). -/
def missingStatus : Missing → Status
  | .noBytes => .endOfStream
  | .shortBytes => .truncated

/-- `Ok(len)` of `LEN` (R70). -/
def Delivery.okLen (L : Nat) : Delivery := .enc .ok (some (lenPort L))

/-- `Ok` of `APPEND` and of `WRITE`, which produce no `len` (R12, R80, R125). -/
def Delivery.okDone : Delivery := .enc .ok none

/-- `Ok(value, consumed)` of `PARSE` (R100). -/
def Delivery.okParse (v : Value) (L : Nat) : Delivery := .dec .ok (some v) (some (lenPort L))

/-- `Ok(value)` of `PEEK` and of `READ`, which produce no `consumed` (R13, R105, R110). -/
def Delivery.okValue (v : Value) : Delivery := .dec .ok (some v) none

end Sys2Proof.Machine
end

