-- ==== Sys2Proof/Machine/Append.lean ====
section
/-! DEFINITION. Encoding to the buffer: `APPEND` (41_encode_append.md). -/

namespace Sys2Proof.Machine

/-- `APPEND` (R80): the range check comes before any write (R82); a buffer without room is refused, it
is no failure (R37); otherwise the canonical encoding is written at the buffer's end. -/
def execAppend (s : State) : Result :=
  s.atEnc fun s =>
    match lenOf s.vPort with
    | none => .next (s.raise .enc .outOfRange)
    | some L =>
      if s.dst.hasRoom L then
        .next ((s.withDst { s.dst with space := s.dst.space.append (encOf s.vPort) }).deliver
          Delivery.okDone)
      else .refused .bufferFull

end Sys2Proof.Machine
end

