-- ==== Sys2Proof/Machine/Length.lean ====
section
/-! DEFINITION. The length calculation: `LEN` (40_length.md). -/

namespace Sys2Proof.Machine

/-- `LEN` (R70, R71): the encoded length of the value on the port, or `OutOfRange`. -/
def execLen (s : State) : Result :=
  s.atEnc fun s =>
    match lenOf s.vPort with
    | none => .next (s.raise .enc .outOfRange)
    | some L => .next (s.deliver (Delivery.okLen L))

end Sys2Proof.Machine
end

