-- ==== Sys2Proof/Machine/Slice.lean ====
section
/-! DEFINITION. Decoding from the slice: `PARSE` and `PEEK` (43_decode_parse.md). -/

namespace Sys2Proof.Machine

/-- Decode the encoding at the start of the slice operand and deliver a result made of its Value and
declared length, or the failure for the bytes that are missing (R100 to R104). Nothing but the
result changes: the slice is read only and the cursor is the host's (R35, R193). -/
def State.decodeSlice (s : State) (out : Value → Nat → Delivery) : Result :=
  match decOf s.sliceBytes with
  | .error m => .next (s.raise .dec (missingStatus m))
  | .ok (v, L) => .next (s.deliver (out v L))

/-- `PARSE` (R100): Value and consumed count. -/
def execParse (s : State) : Result :=
  s.atDec fun s => s.decodeSlice Delivery.okParse

/-- `PEEK` (R105): `PARSE` with the consumed count discarded, and its failures. -/
def execPeek (s : State) : Result :=
  s.atDec fun s => s.decodeSlice fun v _ => Delivery.okValue v

end Sys2Proof.Machine
end

