-- ==== Sys2Proof/Machine/StreamRead.lean ====
section
/-! DEFINITION. The stream read: `READ` (44_stream_read.md), as the step machine of R114 run over the
answers the source has ready, and as the function of R110. -/

namespace Sys2Proof.Machine

/-! ### The step machine (R114) -/

/-- Issue one pull (R38). -/
def State.issuePull (s : State) : State := s.withSrc { s.src with pulls := s.src.pulls + 1 }

/-- The source has given a byte: its position moves on, destructively (R38). -/
def State.tookByte (s : State) : State := s.withSrc { s.src with taken := s.src.taken + 1 }

/-- `start` (R114): a `READ` is in flight, its first pull issued. -/
def State.startRead (s : State) : State :=
  (s.withDec { s.dec with reading := true, phase := .idle }).issuePull

/-- The end of a `READ`: the phase is `Idle`, nothing is in flight, and `acc` and `rem` are dead (R14,
R114; log entry 18). -/
def State.endRead (s : State) : State := (s.withDec s.idleDec).draw

/-- A byte has been accumulated, with so many still to be pulled: the result when none is, else the
next pull (the common end of `step_first` and `step_body`, R114). -/
def State.afterByte (s : State) (acc : BitVec 62) (rem : BitVec 3) : State :=
  if rem = 0 then
    (((s.withDec { s.dec with acc := acc, rem := rem }).tookByte).endRead).deliver
      (Delivery.okValue acc)
  else
    ((s.withDec { s.dec with phase := .body, acc := acc, rem := rem }).tookByte).issuePull

/-- One beat (R114): the answer to the outstanding pull. `DEC.phase` tells `EndOfStream` from
`Truncated`; an I/O failure is passed on unchanged (R111, R112, R115). -/
def State.readBeat (s : State) (a : PullAnswer) : State :=
  match s.dec.phase, a with
  | .idle, .exhausted => s.endRead.raise .dec .endOfStream
  | .idle, .fail e => s.endRead.raise .dec (.io e)
  | .idle, .byte b0 => s.afterByte (accStart b0) (BitVec.ofNat 3 (taglen b0 - 1))
  | .body, .exhausted => s.endRead.raise .dec .truncated
  | .body, .fail e => s.endRead.raise .dec (.io e)
  | .body, .byte b => s.afterByte (accNext s.dec.acc b) (s.dec.rem - 1)

/-- The answers given become beats, in order, for as long as the `READ` is in flight; the others stay
with the source (R38, R41). When they run out the decoder waits (R114, R198). -/
def readRun : List PullAnswer → State → State
  | [], s => s.withSrc { s.src with answers := [] }
  | a :: rest, s =>
    if s.dec.reading then readRun rest (s.readBeat a)
    else s.withSrc { s.src with answers := a :: rest }

/-- `READ` (R110, R114): start, then take the answers the source has ready (log entry 4). -/
def execRead (s : State) : Result :=
  s.atDec fun s => .next (readRun s.src.answers s.startRead)

/-! ### The function of the answers (R110) -/

/-- What a `READ` comes to, given the answers of its source. -/
structure ReadEnd where
  /-- `Ok(value)` or the failure. -/
  result : Except Status Value
  /-- The pulls made (R113). -/
  pulls : Nat
  /-- The bytes consumed (R113). -/
  taken : Nat
  /-- The answers never asked for. -/
  rest : List PullAnswer

/-- The loop of R110: `k` bytes still to be pulled, after `n` that were. `none` when the source has
not answered a pull. -/
def readRest : Nat → Nat → Value → List PullAnswer → Option ReadEnd
  | 0, n, acc, as => some ⟨.ok acc, n, n, as⟩
  | _ + 1, _, _, [] => none
  | _ + 1, n, _, .exhausted :: as => some ⟨.error .truncated, n + 1, n, as⟩
  | _ + 1, n, _, .fail e :: as => some ⟨.error (.io e), n + 1, n, as⟩
  | k + 1, n, acc, .byte b :: as => readRest k (n + 1) (accNext acc b) as

/-- `READ` as the function of its source's answers (R110). -/
def readOf : List PullAnswer → Option ReadEnd
  | [] => none
  | .exhausted :: as => some ⟨.error .endOfStream, 1, 0, as⟩
  | .fail e :: as => some ⟨.error (.io e), 1, 0, as⟩
  | .byte b0 :: as => readRest (taglen b0 - 1) 1 (accStart b0) as

end Sys2Proof.Machine
end

