-- ==== Sys2Proof/Machine/StreamWrite.lean ====
section
/-! DEFINITION. The stream write: `WRITE` (45_stream_write.md), as the step machine of R129 run over the
answers the sink has ready, and as the function of R125. -/

namespace Sys2Proof.Machine

/-! ### The step machine (R129) -/

/-- `byte_at` (R129): a byte of the encoding in `ENC.hold`, from the registers. -/
def EncRegs.byteAt (e : EncRegs) (i : Nat) : Byte :=
  (e.hold >>> (8 * (e.len.toNat - 1 - i))).setWidth 8

/-- Issue one push: the byte is offered to the sink (R39). -/
def State.issuePush (s : State) (i : Nat) : State :=
  s.withSnk { s.snk with offered := s.snk.offered ++ [s.enc.byteAt i] }

/-- The sink holds a further byte. -/
def State.sinkHolds (s : State) (b : Byte) : State :=
  s.withSnk { s.snk with contents := s.snk.contents ++ [b] }

/-- `start` (R129) for a value of encoded length `L`: the value is sampled into `ENC.hold` (R46) and
the first push issued. -/
def State.startWrite (s : State) (L : Nat) : State :=
  (s.withEnc { phase := .pushing, hold := wireWord L s.vPort, len := lenPort L, idx := 0 }).issuePush 0

/-- The sink holds the byte last pushed or not, as it decides (R39, R127, U3). -/
def State.sinkMayHold (s : State) (keeps : Bool) : State :=
  if keeps then s.sinkHolds (s.enc.byteAt s.enc.idx) else s

/-- The end of a `WRITE`: the phase is `Idle`, and `hold`, `len` and `idx` are dead (R15, R129; log
entry 18). -/
def State.endWrite (s : State) : State := (s.withEnc s.idleEnc).draw

/-- One beat (R129): what the sink does at the outstanding push. On `Ok` the sink has the byte and the
next one is pushed, until the length is reached; a failure ends the `WRITE` with the same payload,
and the sink keeps the byte or not, as it decides (R127, U3). -/
def State.writeBeat (s : State) (b : SinkBeat) : State :=
  match b.answer with
  | .fail x => (s.sinkMayHold b.keeps).endWrite.raise .enc (.io x)
  | .ok =>
    let t := (s.sinkHolds (s.enc.byteAt s.enc.idx)).withEnc { s.enc with idx := s.enc.idx + 1 }
    if s.enc.idx + 1 = s.enc.len.toNat then t.endWrite.deliver Delivery.okDone
    else t.issuePush (s.enc.idx + 1)

/-- What the sink is ready to do becomes beats, in order, for as long as the `WRITE` is in flight
(R39, R41). When that runs out the encoder waits (R129, R198). -/
def writeRun : List SinkBeat → State → State
  | [], s => s.withSnk { s.snk with beats := [] }
  | b :: rest, s =>
    if s.encBusy then writeRun rest (s.writeBeat b)
    else s.withSnk { s.snk with beats := b :: rest }

/-- `WRITE` (R125, R129): the range check comes before any push (R126); then start, and take the
answers the sink has ready (log entry 4). -/
def execWrite (s : State) : Result :=
  s.atEnc fun s =>
    match lenOf s.vPort with
    | none => .next (s.raise .enc .outOfRange)
    | some L => .next (writeRun s.snk.beats (s.startWrite L))

/-! ### The function of the answers (R125) -/

/-- What a `WRITE` comes to, given what its sink does. -/
structure WriteEnd where
  /-- `Ok` or the failure. -/
  status : Status
  /-- The bytes pushed, in order (R128). -/
  pushed : List Byte
  /-- The bytes the sink has of them (R127, R128). -/
  kept : List Byte
  /-- What the sink would have done at pushes never made. -/
  rest : List SinkBeat

/-- The loop of R125 over the bytes still to be pushed. `none` when the sink has not answered. -/
def writeRest : List Byte → List SinkBeat → Option WriteEnd
  | [], bs => some ⟨.ok, [], [], bs⟩
  | _ :: _, [] => none
  | e :: es, b :: bs =>
    match b.answer with
    | .fail x => some ⟨.io x, [e], if b.keeps then [e] else [], bs⟩
    | .ok =>
      match writeRest es bs with
      | none => none
      | some w => some ⟨w.status, e :: w.pushed, e :: w.kept, w.rest⟩

/-- `WRITE` as the function of the value and of what its sink does (R125). -/
def writeOf (v : VIn) (bs : List SinkBeat) : Option WriteEnd :=
  match lenOf v with
  | none => some ⟨.outOfRange, [], [], bs⟩
  | some _ => writeRest (encOf v) bs

end Sys2Proof.Machine
end

