-- ==== Sys2Proof/Machine/Tag.lean ====
section
/-! DEFINITION. The length-tag extractor: `TAGLEN` (42_tag_extractor.md). -/

namespace Sys2Proof.Machine

/-- `TAGLEN` (R90): tag and declared length of the byte on the port. The extractor is combinational:
it is never busy and never fails (R18). -/
def execTaglen (s : State) : Result :=
  .next (s.deliver (.lte (tagOf s.b0Port) (lenPort (taglen s.b0Port))))

end Sys2Proof.Machine
end

