-- ==== Sys2Proof/Machine/Wire.lean ====
section
/-! DEFINITION. The wire forms at the decoder (30_encoding.md R50 to R58) and the reserved operation
code (R60). A form that arrives at the decoder delivers the Value it carries, zero-extended to the
`value` port (R52), with its declared length as the consumed count (R53, R103), as `PARSE` does for
a slice that begins with it (log entry 1). -/

namespace Sys2Proof.Machine

/-- Deliver the Value and the declared length of a wire form. -/
def State.takeForm (s : State) (L : Nat) (v : Value) : Result :=
  s.atDec fun s => .next (s.deliver (Delivery.okParse v L))

/-- `VI1` (R50, R52): six payload bits in one byte. -/
def execVi1 (v : Value) (s : State) : Result := s.takeForm 1 v

/-- `VI2` (R50, R52): fourteen payload bits in two bytes. -/
def execVi2 (v : Value) (s : State) : Result := s.takeForm 2 v

/-- `VI4` (R50, R52): thirty payload bits in four bytes. -/
def execVi4 (v : Value) (s : State) : Result := s.takeForm 4 v

/-- `VI8` (R50, R52): sixty-two payload bits in eight bytes. -/
def execVi8 (v : Value) (s : State) : Result := s.takeForm 8 v

/-- Operation code 7 (R60): "select no operation: the model refuses them (no result, no failure
kind)". -/
def execReservedOp7 (_s : State) : Result := .refused .reservedOpcode

/-- A slot that holds no instruction: a code at the wrong unit is refused (R60); an encoding with bytes
missing is the decoder's failure, as in `PARSE` (R101, R102). -/
def rejectSlot (r : Reject) (s : State) : Result :=
  match r with
  | .notOwned => .refused .wrongUnit
  | .missing m => s.atDec fun s => .next (s.raise .dec (missingStatus m))

end Sys2Proof.Machine
end

