-- ==== Sys2Proof/Machine/Dispatch.lean ====
section
/-! DEFINITION. The meaning of every instruction, one arm each. -/

namespace Sys2Proof.Machine

def exec (i : Instr) (s : State) : Host.Outcome State Fault Refusal :=
  match i with
  | .len => Sys2Proof.Machine.execLen s
  | .append => Sys2Proof.Machine.execAppend s
  | .parse => Sys2Proof.Machine.execParse s
  | .peek => Sys2Proof.Machine.execPeek s
  | .read => Sys2Proof.Machine.execRead s
  | .write => Sys2Proof.Machine.execWrite s
  | .taglen => Sys2Proof.Machine.execTaglen s
  | .reservedOp7 => Sys2Proof.Machine.execReservedOp7 s
  | .vi1 v => Sys2Proof.Machine.execVi1 v s
  | .vi2 v => Sys2Proof.Machine.execVi2 v s
  | .vi4 v => Sys2Proof.Machine.execVi4 v s
  | .vi8 v => Sys2Proof.Machine.execVi8 v s

end Sys2Proof.Machine
end

