-- ==== Sys2Proof/Machine/Environment.lean ====
section
/-! DEFINITION. The moves of the host and of the environment that are no command (60_exceptions.md
R175), and reset (70_reset_and_hazards.md R190, R191). -/

namespace Sys2Proof.Machine

/-- The host hands over a source. One that a `READ` is using may not be exchanged (R42). -/
def State.giveSrc (s : State) (as : List PullAnswer) : Result :=
  if s.decBusy then .refused .handleInUse
  else .next (s.withSrc { answers := as, pulls := 0, taken := 0 })

/-- The host hands over a sink. One that a `WRITE` is using may not be exchanged (R42). -/
def State.giveSnk (s : State) (bs : List SinkBeat) : Result :=
  if s.encBusy then .refused .handleInUse
  else .next (s.withSnk { beats := bs, offered := [], contents := [] })

/-- The source gives an answer: a waiting `READ` takes it, else it stands ready for the next one (R38,
R114). The spec does not say what becomes of the answer to a pull that a reset abandoned: coming
late, it stands ready too (DESIGN CHOICE, log entry 23). -/
def State.srcAnswer (s : State) (a : PullAnswer) : State := readRun (s.src.answers ++ [a]) s

/-- The sink gives an answer: a waiting `WRITE` takes it, else it stands ready for the next one (R39,
R129), the late answer to a push that a reset abandoned too (DESIGN CHOICE, log entry 23). -/
def State.snkAnswer (s : State) (b : SinkBeat) : State := writeRun (s.snk.beats ++ [b]) s

/-- What a reset does to the units (R190): both are idle, an operation in flight is abandoned without a
result. The other registers are unspecified (R20): free values. -/
def State.resetUnits (s : State) : State := ((s.withEnc s.idleEnc).withDec s.idleDec).draw

/-- Reset (R190, R191): the units are idle, what an abandoned operation did to the environment stays
done. An abandoned `WRITE` leaves the sink as a sink failure does: the bytes answered `Ok` for
certain, the byte of the unanswered push as the sink decides (R127, U3; log entry 14). -/
def State.resetBlock (s : State) (keeps : Bool) : State :=
  (if s.encBusy then s.sinkMayHold keeps else s).resetUnits

/-- The destination after a reset that struck an `APPEND` (R191): the old contents, some of the
encoding's bytes, and a length field, both unspecified; what the length covers beyond the bytes
written is unspecified too. -/
def State.struckBytes (s : State) : List Byte :=
  let e := encOf s.vPort
  let written := s.dst.space.bytes ++ e.take (Config.freeCount s.draws % (e.length + 1))
  (List.range (Config.freeDstLen s.draws)).map fun i =>
    written.getD i (Config.freeByte s.draws i)

/-- Reset while an `APPEND` is being carried out (R191, U13). The command is accepted or refused as
`APPEND` is; one that fails its range check has touched nothing; no result is delivered. -/
def State.resetInAppend (s : State) : Result :=
  s.atEnc fun s =>
    match lenOf s.vPort with
    | none => .next s.resetUnits
    | some L =>
      if s.dst.hasRoom L then
        .next (s.withDst { s.dst with space := Space.ofBytes s.struckBytes }).resetUnits
      else .refused .bufferFull

end Sys2Proof.Machine
end

