-- ==== Sys2Proof/Machine/Step.lean ====
section
/-! DEFINITION. One step: the next move of the host or the environment is taken. -/

namespace Sys2Proof.Machine

/-- What one move does. A presented slot is decoded and its instruction run; a slot that holds none is
rejected. -/
def State.take (s : State) (e : Event) : Result :=
  match e with
  | .present slot =>
    match decode slot with
    | .ok i => exec i s
    | .error r => rejectSlot r s
  | .driveV v => .next (s.withVPort v)
  | .driveB0 b => .next (s.withB0Port b)
  | .giveSlice bytes => .next (s.withSlice .own (Space.ofBytes bytes))
  | .giveDstAsSlice => .next (s.withSlice .dst Space.empty)
  | .setCursor c => .next (s.withCursor c)
  | .giveDst bytes cap => .next (s.withDst { space := Space.ofBytes bytes, cap := cap })
  | .giveSrc answers => s.giveSrc answers
  | .srcAnswer a => .next (s.srcAnswer a)
  | .giveSnk beats => s.giveSnk beats
  | .snkAnswer b => .next (s.snkAnswer b)
  | .reset keeps => .next (s.resetBlock keeps)
  | .resetInAppend => s.resetInAppend

/-- One step takes the first move of `inbox`. With none to come nothing changes: the block does nothing
of its own, and an operation whose answer has not come waits (R171, R198; log entry 3). -/
def step (s : State) : Host.Outcome State Fault Refusal :=
  match s.inbox with
  | [] => .next s
  | e :: es => (s.withInbox es).take e

/-- The state whose next move presents an instruction given as a word of the opcode table (log
entries 2, 3). -/
def State.withFetchWord (s : State) (nbits w : Nat) : State :=
  s.withInbox (.present (tableSlot nbits w) :: s.inbox)

end Sys2Proof.Machine
end

