-- ==== Sys2Proof/WellFormed.lean ====
section
/-! DEFINITION. Which instructions are well formed: a wire form's Value must fit its payload width
(R50, R52). -/

namespace Sys2Proof

/-- The payload widths of R50: 6, 14, 30 and 62 bits. An operation has no operand to check; every
62-bit Value fits the eight-byte form. -/
def Instr.wf : Instr → Bool
  | .len => true
  | .append => true
  | .parse => true
  | .peek => true
  | .read => true
  | .write => true
  | .taglen => true
  | .reservedOp7 => true
  | .vi1 v => decide (v.toNat < 2 ^ 6)
  | .vi2 v => decide (v.toNat < 2 ^ 14)
  | .vi4 v => decide (v.toNat < 2 ^ 30)
  | .vi8 v => decide (v.toNat < 2 ^ 62)

end Sys2Proof
end

