-- ==== Sys2Proof/Safety.lean ====
section
/-! DEFINITION. The terms in which claims are stated: the number a byte sequence spells, the invariant of
the machine, what of the registers is alive, what the host may do, and which results an operation may
deliver. -/

namespace Sys2Proof.Machine

/-! ### Numbers of byte sequences -/

/-- The big-endian number a byte sequence spells (R32, R52). -/
def bigNat (bs : List Byte) : Nat := bs.foldl (fun n b => 256 * n + b.toNat) 0

/-- The payload width of a form of `L` bytes (R50, R52). -/
def payloadBits (L : Nat) : Nat := 6 + 8 * (L - 1)

/-- The four lengths of an encoding (R50). -/
def lengths : List Nat := [1, 2, 4, 8]

/-! ### Results -/

/-- What the `Ok` outputs of a decoder operation may be: a Value below the bound of its declared length
(R150); the consumed count is one of the four lengths (R103). -/
def okDecoded (v : Value) (c : Nat) : Bool := c ∈ lengths && decide (v.toNat < 2 ^ payloadBits c)

/-- A result has one of the shapes of R12, R13, R18, R168: `OK` with its values, or one of the unit's
failure kinds (R151) with every data output absent. -/
def Delivery.wf : Delivery → Bool
  | .enc .ok none => true
  | .enc .ok (some l) => l.toNat ∈ lengths
  | .enc .outOfRange none => true
  | .enc (.io _) none => true
  | .enc _ _ => false
  | .dec .ok (some _) none => true
  | .dec .ok (some v) (some c) => okDecoded v c.toNat
  | .dec .endOfStream none none => true
  | .dec .truncated none none => true
  | .dec (.io _) none none => true
  | .dec _ _ _ => false
  | .lte t l => l.toNat == 2 ^ t.toNat

/-- The matrix of R165: the results an instruction can deliver, with the outputs of R12, R13, R18. -/
def mayDeliver : Instr → Delivery → Bool
  | .len, .enc .ok (some l) => l.toNat ∈ lengths
  | .len, .enc .outOfRange none => true
  | .append, .enc .ok none => true
  | .append, .enc .outOfRange none => true
  | .taglen, .lte t l => l.toNat == 2 ^ t.toNat
  | .parse, .dec .ok (some v) (some c) => okDecoded v c.toNat
  | .parse, .dec .endOfStream none none => true
  | .parse, .dec .truncated none none => true
  | .peek, .dec .ok (some _) none => true
  | .peek, .dec .endOfStream none none => true
  | .peek, .dec .truncated none none => true
  | .read, .dec .ok (some _) none => true
  | .read, .dec .endOfStream none none => true
  | .read, .dec .truncated none none => true
  | .read, .dec (.io _) none none => true
  | .write, .enc .ok none => true
  | .write, .enc .outOfRange none => true
  | .write, .enc (.io _) none => true
  | .vi1 v, .dec .ok (some w) (some c) => w == v && c == 1#4
  | .vi2 v, .dec .ok (some w) (some c) => w == v && c == 2#4
  | .vi4 v, .dec .ok (some w) (some c) => w == v && c == 4#4
  | .vi8 v, .dec .ok (some w) (some c) => w == v && c == 8#4
  | _, _ => false

/-! ### The invariant -/

/-- The decoder's part: `Body` only in a `READ`; a waiting decoder has left no answer untaken; in the
middle of a value some bytes are still to come, and the accumulator leaves room for exactly them, so
that no shift loses a bit (R14, R114, R153). -/
def State.decInv (s : State) : Prop :=
  (s.dec.phase = .body → s.dec.reading = true) ∧
  (s.dec.reading = true → s.src.answers = []) ∧
  (s.dec.phase = .body → s.dec.rem ≠ 0 ∧ s.dec.acc.toNat * 2 ^ (8 * s.dec.rem.toNat) < 2 ^ 62)

/-- The encoder's part: a waiting encoder has left nothing of the sink's untaken; it holds the canonical
encoding of some Value, and the byte last pushed is the one its index names (R15, R129). -/
def State.encInv (s : State) : Prop :=
  s.enc.phase = .pushing →
    s.snk.beats = [] ∧
    s.enc.idx < s.enc.len.toNat ∧
    s.snk.offered.getLast? = some (s.enc.byteAt s.enc.idx) ∧
    ∃ v, lenOf v = some s.enc.len.toNat ∧ s.enc.hold = wireWord s.enc.len.toNat v

/-- The invariant of the machine: the units' parts; the byte spaces canonical; no more bytes taken from
the source than pulls made, the outstanding one left out (R113); every result of a shape the spec
gives. -/
def State.Inv (s : State) : Prop :=
  s.decInv ∧ s.encInv ∧ s.slice.wf = true ∧ s.dst.space.wf = true ∧
  s.src.taken + (if s.dec.reading then 1 else 0) ≤ s.src.pulls ∧
  ∀ d ∈ s.delivered, d.wf = true

/-- Both units are idle: no operation in flight (R16, R190). -/
def State.idle (s : State) : Prop :=
  s.dec.reading = false ∧ s.dec.phase = .idle ∧ s.enc.phase = .idle

/-! ### What of the registers is alive -/

/-- The decoder's registers with the dead ones blanked: `acc` and `rem` hold something only in the
middle of a value (R14, U12). -/
def DecRegs.live (d : DecRegs) : DecRegs :=
  if d.reading = true ∧ d.phase = .body then d else { d with phase := .idle, acc := 0, rem := 0 }

/-- The encoder's registers with the dead ones blanked: `hold`, `len` and `idx` hold something only
between a first push and its result (R15, U12). -/
def EncRegs.live (e : EncRegs) : EncRegs :=
  if e.phase = .pushing then e else { e with hold := 0, len := 0, idx := 0 }

/-- The state with the dead registers blanked. -/
def State.live (s : State) : State := { s with dec := s.dec.live, enc := s.enc.live }

/-- An outcome with its next state, if it has one, changed. -/
def onNext (f : State → State) : Result → Result
  | .next s => .next (f s)
  | .fault r => .fault r
  | .refused r => .refused r

/-- An outcome with the dead registers of its next state blanked. -/
def liveResult : Result → Result := onNext State.live

/-- The decoder's registers in the middle of a `READ` that has taken these bytes and waits, from the
registers before it (R114). -/
def DecRegs.holding (d : DecRegs) : List Byte → DecRegs
  | [] => { d with reading := true, phase := .idle }
  | b0 :: body =>
    { reading := true, phase := .body, acc := accumulate b0 body,
      rem := BitVec.ofNat 3 (taglen b0 - 1 - body.length) }

/-! ### What the host may do -/

/-- The instruction has a meaning here: the unit that owns it is not busy, an `APPEND` within the domain
has room, and the code is not the reserved one (R16, R37, R60). -/
def State.accepts (s : State) : Instr → Bool
  | .len => !s.encBusy
  | .append => !s.encBusy && (lenOf s.vPort).all s.dst.hasRoom
  | .parse => !s.decBusy
  | .peek => !s.decBusy
  | .read => !s.decBusy
  | .write => !s.encBusy
  | .taglen => true
  | .reservedOp7 => false
  | .vi1 _ => !s.decBusy
  | .vi2 _ => !s.decBusy
  | .vi4 _ => !s.decBusy
  | .vi8 _ => !s.decBusy

/-- The host keeps the contract with a move (R175): it presents an instruction that has a meaning, at
the unit that owns it, and leaves a source or a sink in use alone. -/
def State.admits (s : State) : Event → Bool
  | .present slot =>
    match decode slot with
    | .ok i => s.accepts i
    | .error (.missing _) => !s.decBusy
    | .error .notOwned => false
  | .giveSrc _ => !s.decBusy
  | .giveSnk _ => !s.encBusy
  | .resetInAppend => s.accepts .append
  | .driveV _ => true
  | .driveB0 _ => true
  | .giveSlice _ => true
  | .giveDstAsSlice => true
  | .setCursor _ => true
  | .giveDst _ _ => true
  | .srcAnswer _ => true
  | .snkAnswer _ => true
  | .reset _ => true

/-- An instruction carried out so many times in a row. -/
def execTimes (i : Instr) : Nat → State → Result
  | 0, s => .next s
  | n + 1, s =>
    match exec i s with
    | .next t => execTimes i n t
    | .fault r => .fault r
    | .refused r => .refused r

end Sys2Proof.Machine
end

