-- ==== Sys2Proof/Certificates/Slice0/Obligations.lean ====
section
/-! DEFINITION. What is to be proved of the model. -/

open Sys2Proof Sys2Proof.Machine

/-! ### The wire format and its four functions -/

/-- R72, R141: the encoded length is the least of 1, 2, 4, 8 whose payload holds the value. -/
def Obligations.EncodedLengthIsLeast : Prop :=
  ∀ (v : VIn) (L : Nat), lenOf v = some L ↔
    L ∈ lengths ∧ v.toNat < 2 ^ payloadBits L ∧
      ∀ M ∈ lengths, v.toNat < 2 ^ payloadBits M → L ≤ M

/-- R81: the bytes of the canonical encoding, form by form; nothing above the domain (R59). -/
def Obligations.EncodingBytesByForm : Prop :=
  ∀ v : VIn,
    (v.toNat ≤ 63 → encOf v = [v.setWidth 8]) ∧
    (63 < v.toNat ∧ v.toNat ≤ 16383 →
      encOf v = [0x40#8 ||| (v >>> 8).setWidth 8, v.setWidth 8]) ∧
    (16383 < v.toNat ∧ v.toNat ≤ 1073741823 →
      encOf v = [0x80#8 ||| (v >>> 24).setWidth 8, (v >>> 16).setWidth 8, (v >>> 8).setWidth 8,
        v.setWidth 8]) ∧
    (1073741823 < v.toNat ∧ v.toNat ≤ 4611686018427387903 →
      encOf v = [0xC0#8 ||| (v >>> 56).setWidth 8, (v >>> 48).setWidth 8, (v >>> 40).setWidth 8,
        (v >>> 32).setWidth 8, (v >>> 24).setWidth 8, (v >>> 16).setWidth 8, (v >>> 8).setWidth 8,
        v.setWidth 8]) ∧
    (4611686018427387903 < v.toNat → encOf v = [])

/-- R52, R81: the canonical encoding has the encoded length, and read as one big-endian number it is the
length code above the value. -/
def Obligations.EncodingIsBigEndianWord : Prop :=
  ∀ (v : VIn) (L : Nat), lenOf v = some L →
    (encOf v).length = L ∧ bigNat (encOf v) = codeOf L * 2 ^ (8 * L - 2) + v.toNat

/-- R91: the first byte of a canonical encoding tells the encoded length and its code. -/
def Obligations.FirstByteTellsEncodedLength : Prop :=
  ∀ (v : VIn) (L : Nat), lenOf v = some L →
    ∃ b0 rest, encOf v = b0 :: rest ∧ taglen b0 = L ∧ (tagOf b0).toNat = codeOf L

/-- R140: decoding the canonical encoding of a Value, whatever follows it, gives the Value back with its
encoded length. -/
def Obligations.DecodeOfEncodingGivesValue : Prop :=
  ∀ (v : VIn) (L : Nat) (tail : List Byte), lenOf v = some L →
    ∃ w : Value, w.toNat = v.toNat ∧ decOf (encOf v ++ tail) = .ok (w, L)

/-- R57: the decoder accepts every form that holds the Value, canonical or not, and nothing else of that
length decodes to it. -/
def Obligations.EveryWideEnoughFormDecodes : Prop :=
  ∀ (w : Value) (L : Nat) (bs : List Byte), L ∈ lengths → bs.length = L →
    (decOf bs = .ok (w, L) ↔ w.toNat < 2 ^ payloadBits L ∧ bs = encBytes L (w.setWidth 64))

/-- R147: no canonical encoding begins another. -/
def Obligations.EncodingsArePrefixFree : Prop :=
  ∀ (v w : VIn) (L : Nat) (tail : List Byte), lenOf v = some L → encOf w = encOf v ++ tail →
    v = w ∧ tail = []

/-- R149: re-encoding a decoded Value never takes more bytes than were consumed, and gives the same bytes
exactly when the encoding was canonical. -/
def Obligations.ReencodingIsNoLonger : Prop :=
  ∀ (bs : List Byte) (w : Value) (L : Nat), decOf bs = .ok (w, L) →
    ∃ M, lenOf (w.setWidth 64) = some M ∧ M ≤ L ∧
      (encOf (w.setWidth 64) = bs.take L ↔ M = L) ∧
      (M ≠ L → (encOf (w.setWidth 64)).length < L)

/-- R58, R150: a decoded Value lies below the bound of its declared length, and the declared length lies
within the slice. -/
def Obligations.DecodedValueIsInRange : Prop :=
  ∀ (bs : List Byte) (w : Value) (L : Nat), decOf bs = .ok (w, L) →
    L ∈ lengths ∧ L ≤ bs.length ∧ w.toNat < 2 ^ payloadBits L ∧
      (lenOf (w.setWidth 64)).isSome = true

/-- R35: only the first eight bytes of a slice matter (R13), and what follows a whole encoding does
not. -/
def Obligations.DecodeReadsDeclaredBytesOnly : Prop :=
  (∀ bs : List Byte, decOf bs = decOf (bs.take 8)) ∧
  ∀ (bs tail : List Byte) (w : Value) (L : Nat), decOf bs = .ok (w, L) →
    decOf (bs ++ tail) = .ok (w, L) ∧ decOf (bs.take L) = .ok (w, L)

/-- R129: the byte that the encoder's registers name at an index is the byte of the encoding there, for the
word `ENC.hold` holds. -/
def Obligations.HeldWordNamesEncodingBytes : Prop :=
  ∀ (v : VIn) (L i : Nat) (p : EncPhase) (k : Nat), lenOf v = some L → i < L →
    (wireWord L v).toNat = codeOf L * 2 ^ (8 * L - 2) + v.toNat ∧
    (encOf v)[i]? =
      some (EncRegs.byteAt { phase := p, hold := wireWord L v, len := lenPort L, idx := k } i)

/-! ### Decoding and encoding instructions -/

/-- Decoding what the encoder writes gives the instruction back, for every well-formed instruction: the
seven operations, the reserved code and the four wire forms with every payload (R50, R52, R60).
That a form is presented by itself is the model's choice, log entry 1. -/
def Obligations.DecodeOfEncodeIsInstruction : Prop :=
  ∀ i : Instr, i.wf = true → decode (encode i) = .ok i

/-- Every slot the decoder accepts holds a well-formed instruction, and the encoder writes its bytes back:
those of the declared length for an encoding, the code for a command (R50, R52, R53, R60).
That a form is presented by itself is the model's choice, log entry 1. -/
def Obligations.EncodeOfDecodeIsSlot : Prop :=
  (∀ (bs : List Byte) (i : Instr), decode (.encoding bs) = .ok i →
    i.wf = true ∧ ∃ e tail, encode i = .encoding e ∧ bs = e ++ tail) ∧
  ∀ (u : CodecUnit) (op : BitVec 3) (i : Instr), decode (.command u op) = .ok i →
    i.wf = true ∧ (i.unit = some u ∨ i = .reservedOp7) ∧ ∃ w, encode i = .command w op

/-- R53, R56, R57: any byte is a legal first byte; its two top bits alone choose the form, and the form
carries the payload of the declared bytes, whatever follows them.
That a form is presented by itself is the model's choice, log entry 1. -/
def Obligations.EncodingSlotDecodesToForm : Prop :=
  ∀ (b0 : Byte) (body tail : List Byte), body.length + 1 = 2 ^ (b0.toNat / 64) →
    ∃ w : Value, w.toNat = bigNat (b0 :: body) % 2 ^ payloadBits (body.length + 1) ∧
      decode (.encoding (b0 :: (body ++ tail))) =
        .ok (if b0.toNat < 64 then .vi1 w else if b0.toNat < 128 then .vi2 w
          else if b0.toNat < 192 then .vi4 w else .vi8 w)

/-- A few words written out from the spec's encodings decode to their instructions (R50, R60).
How a word of the table is laid out is the model's choice, log entry 2. -/
def Obligations.SampleWordsDecode : Prop :=
  decodeTableWord 8 0b000 = some .len ∧ decodeTableWord 8 0b011 = some .peek ∧
  decodeTableWord 8 0b110 = some .taglen ∧ decodeTableWord 8 0b111 = some .reservedOp7 ∧
  decodeTableWord 8 0x25 = some (.vi1 37) ∧ decodeTableWord 16 0x7BBD = some (.vi2 15293) ∧
  decodeTableWord 32 0x9D7F3E7D = some (.vi4 494878333) ∧
  decodeTableWord 64 0xC2197C5EFF14E88C = some (.vi8 151288809941952652)

/-- When the next move presents a slot that decodes to an instruction, the step is that instruction's
meaning, the move taken from the list (log entry 3). -/
def Obligations.StepRunsDecodedInstruction : Prop :=
  ∀ (s : State) (slot : Slot) (i : Instr) (es : List Event),
    s.inbox = .present slot :: es → decode slot = .ok i → step s = exec i (s.withInbox es)

/-! ### The operations on values and bytes -/

/-- R70, R71: `LEN` at an idle encoder delivers the encoded length, or `OutOfRange` with no length, and
changes nothing else. -/
def Obligations.LenDeliversLengthOrOutOfRange : Prop :=
  ∀ s : State, s.enc.phase = .idle →
    (s.vPort.toNat ≤ 63 → exec .len s = .next (s.deliver (.enc .ok (some 1)))) ∧
    (63 < s.vPort.toNat ∧ s.vPort.toNat ≤ 16383 →
      exec .len s = .next (s.deliver (.enc .ok (some 2)))) ∧
    (16383 < s.vPort.toNat ∧ s.vPort.toNat ≤ 1073741823 →
      exec .len s = .next (s.deliver (.enc .ok (some 4)))) ∧
    (1073741823 < s.vPort.toNat ∧ s.vPort.toNat ≤ 4611686018427387903 →
      exec .len s = .next (s.deliver (.enc .ok (some 8)))) ∧
    (4611686018427387903 < s.vPort.toNat →
      exec .len s = .next (s.deliver (.enc .outOfRange none)))

/-- R90: `TAGLEN` delivers tag and declared length of the byte on the port, in every state, and changes
nothing else. -/
def Obligations.TaglenDeliversTagAndLength : Prop :=
  ∀ s : State,
    (s.b0Port.toNat < 64 → exec .taglen s = .next (s.deliver (.lte 0 1))) ∧
    (64 ≤ s.b0Port.toNat ∧ s.b0Port.toNat < 128 → exec .taglen s = .next (s.deliver (.lte 1 2))) ∧
    (128 ≤ s.b0Port.toNat ∧ s.b0Port.toNat < 192 → exec .taglen s = .next (s.deliver (.lte 2 4))) ∧
    (192 ≤ s.b0Port.toNat → exec .taglen s = .next (s.deliver (.lte 3 8)))

/-- R36, R80: `APPEND` of a Value with room for it delivers `Ok` and leaves the buffer's bytes followed by
the canonical encoding. Every byte outside the stored ones reads as before; nothing else changes. -/
def Obligations.AppendWritesCanonicalEncoding : Prop :=
  ∀ (s : State) (L : Nat), s.enc.phase = .idle → lenOf s.vPort = some L →
    (∀ c, s.dst.cap = some c → s.dst.space.len + L ≤ c) →
    ∃ sp : Space,
      exec .append s = .next { s with
        dst := { s.dst with space := sp }, delivered := s.delivered ++ [.enc .ok none] } ∧
      sp.len = s.dst.space.len + L ∧
      sp.bytes = s.dst.space.bytes ++ encOf s.vPort ∧
      (∀ i, i < L → sp.read (s.dst.space.len + i) = (encOf s.vPort)[i]?) ∧
      ∀ i, i < s.dst.space.len ∨ s.dst.space.len + L ≤ i → sp.read i = s.dst.space.read i

/-- R82: `APPEND` of a value above the domain delivers `OutOfRange` and touches nothing, whatever the
buffer's capacity. -/
def Obligations.AppendOutOfRangeTouchesNothing : Prop :=
  ∀ s : State, s.enc.phase = .idle → 4611686018427387903 < s.vPort.toNat →
    exec .append s = .next (s.deliver (.enc .outOfRange none))

/-- R37: an `APPEND` that would exceed the buffer's capacity is refused; it is no failure. -/
def Obligations.AppendBeyondCapacityIsRefused : Prop :=
  ∀ (s : State) (L c : Nat), s.enc.phase = .idle → lenOf s.vPort = some L → s.dst.cap = some c →
    c < s.dst.space.len + L → exec .append s = .refused .bufferFull

/-- R100, R103: `PARSE` of a slice that begins with a whole encoding delivers its Value and its declared
length, whatever follows it, and changes nothing else. -/
def Obligations.ParseDeliversValueAndConsumed : Prop :=
  ∀ (s : State) (b0 : Byte) (body tail : List Byte), s.dec.reading = false →
    s.sliceBytes = b0 :: (body ++ tail) → body.length + 1 = 2 ^ (b0.toNat / 64) →
    ∃ w : Value, w.toNat = bigNat (b0 :: body) % 2 ^ payloadBits (body.length + 1) ∧
      exec .parse s =
        .next (s.deliver (.dec .ok (some w) (some (BitVec.ofNat 4 (body.length + 1)))))

/-- R101, R102, R104: `PARSE` of an empty slice delivers `EndOfStream`, of a slice shorter than its declared
length `Truncated`, with no Value and no count, and changes nothing else. -/
def Obligations.ParseOfMissingBytesFails : Prop :=
  ∀ s : State, s.dec.reading = false →
    (s.sliceBytes = [] → exec .parse s = .next (s.deliver (.dec .endOfStream none none))) ∧
    ∀ (b0 : Byte) (rest : List Byte), s.sliceBytes = b0 :: rest →
      rest.length + 1 < 2 ^ (b0.toNat / 64) →
      exec .parse s = .next (s.deliver (.dec .truncated none none))

/-- R62, R105: `PEEK` delivers what `PARSE` delivers, without the consumed count, and the same failures,
and changes nothing else. -/
def Obligations.PeekIsParseWithoutCount : Prop :=
  ∀ s : State, s.dec.reading = false →
    (∃ w c, exec .parse s = .next (s.deliver (.dec .ok (some w) (some c))) ∧
      exec .peek s = .next (s.deliver (.dec .ok (some w) none))) ∨
    (∃ k, (k = .endOfStream ∨ k = .truncated) ∧
      exec .parse s = .next (s.deliver (.dec k none none)) ∧
      exec .peek s = .next (s.deliver (.dec k none none)))

/-- R105: `PEEK` of a slice that begins with a whole encoding delivers its Value and no count; of an empty
or a short slice it fails as `PARSE` does; nothing else changes. -/
def Obligations.PeekDeliversValue : Prop :=
  ∀ s : State, s.dec.reading = false →
    (∀ (b0 : Byte) (body tail : List Byte), s.sliceBytes = b0 :: (body ++ tail) →
      body.length + 1 = 2 ^ (b0.toNat / 64) →
      ∃ w : Value, w.toNat = bigNat (b0 :: body) % 2 ^ payloadBits (body.length + 1) ∧
        exec .peek s = .next (s.deliver (.dec .ok (some w) none))) ∧
    (s.sliceBytes = [] → exec .peek s = .next (s.deliver (.dec .endOfStream none none))) ∧
    ∀ (b0 : Byte) (rest : List Byte), s.sliceBytes = b0 :: rest →
      rest.length + 1 < 2 ^ (b0.toNat / 64) →
      exec .peek s = .next (s.deliver (.dec .truncated none none))

/-- R146: two `PEEK`s of one slice deliver the same result, and the slice stays as it was. -/
def Obligations.PeekTwiceGivesTheSame : Prop :=
  ∀ s : State, s.dec.reading = false →
    ∃ d t, exec .peek s = .next (s.deliver d) ∧ exec .peek (s.deliver d) = .next t ∧
      t = (s.deliver d).deliver d ∧ t.sliceBytes = s.sliceBytes

/-- R144: every proper beginning of a canonical encoding parses to `Truncated`, the empty one to
`EndOfStream`. -/
def Obligations.ParseOfCutEncodingFails : Prop :=
  ∀ (s : State) (v : VIn) (L k : Nat), s.dec.reading = false → lenOf v = some L → k < L →
    s.sliceBytes = (encOf v).take k →
    exec .parse s =
      .next (s.deliver (.dec (if k = 0 then .endOfStream else .truncated) none none))

/-- R140, R46: a value appended to a buffer is parsed back from it, at the place where it was appended, by
a host that hands the buffer to the decoder with its cursor there (log entry 17 says how the
buffer becomes the slice). -/
def Obligations.ParseReadsBackAppend : Prop :=
  ∀ (s : State) (L : Nat), s.enc.phase = .idle → s.dec.reading = false →
    lenOf s.vPort = some L → s.dst.hasRoom L = true →
    ∃ (t u x : State) (w : Value), exec .append s = .next t ∧ t.take .giveDstAsSlice = .next u ∧
      u.take (.setCursor s.dst.space.len) = .next x ∧ w.toNat = s.vPort.toNat ∧
      exec .parse x = .next (x.deliver (.dec .ok (some w) (some (BitVec.ofNat 4 L))))

/-- The wire forms at an idle decoder deliver the Value they carry, with the length of the form as the
count, and change nothing else (the Value: R52; that a form is presented by itself: log entry 1). -/
def Obligations.WireFormsDeliverTheirValue : Prop :=
  ∀ (s : State) (v : Value), s.dec.reading = false →
    exec (.vi1 v) s = .next (s.deliver (.dec .ok (some v) (some 1))) ∧
    exec (.vi2 v) s = .next (s.deliver (.dec .ok (some v) (some 2))) ∧
    exec (.vi4 v) s = .next (s.deliver (.dec .ok (some v) (some 4))) ∧
    exec (.vi8 v) s = .next (s.deliver (.dec .ok (some v) (some 8)))

/-- An encoding presented by itself whose bytes are missing delivers, at an idle decoder, `EndOfStream` if
there is none and `Truncated` if there are fewer than the first declares, and changes nothing else;
a busy decoder refuses it. That an encoding is presented by itself, and fails as a slice does, is the
model's choice, log entry 1. -/
def Obligations.PresentedCutEncodingFails : Prop :=
  ∀ s : State,
    (s.dec.reading = false →
      s.take (.present (.encoding [])) = .next (s.deliver (.dec .endOfStream none none))) ∧
    (∀ (b0 : Byte) (rest : List Byte), s.dec.reading = false → rest.length + 1 < 2 ^ (b0.toNat / 64) →
      s.take (.present (.encoding (b0 :: rest))) = .next (s.deliver (.dec .truncated none none))) ∧
    ∀ bs : List Byte, s.dec.reading = true →
      s.take (.present (.encoding bs)) = .refused (.busy .dec)

/-! ### The stream read -/

/-- R110, R113: `READ` from a source that has a whole encoding ready delivers its Value after exactly the
declared number of pulls, and leaves what follows with the source. The decoder is idle again, its
other registers dead; besides them and one draw of the free values (log entry 18) nothing else
changes. -/
def Obligations.ReadDeliversValue : Prop :=
  ∀ (s : State) (b0 : Byte) (body : List Byte) (rest : List PullAnswer), s.dec.reading = false →
    s.src.answers = (b0 :: body).map .byte ++ rest → body.length + 1 = 2 ^ (b0.toNat / 64) →
    ∃ (w : Value) (d : DecRegs), w.toNat = bigNat (b0 :: body) % 2 ^ payloadBits (body.length + 1) ∧
      d.reading = false ∧ d.phase = .idle ∧
      exec .read s = .next { s with
        dec := d,
        src := { answers := rest, pulls := s.src.pulls + (body.length + 1),
                 taken := s.src.taken + (body.length + 1) },
        delivered := s.delivered ++ [.dec .ok (some w) none],
        draws := s.draws + 1 }

/-- R111: `READ` from an exhausted source delivers `EndOfStream` after one pull, no byte taken. -/
def Obligations.ReadOfExhaustedSourceIsEndOfStream : Prop :=
  ∀ (s : State) (rest : List PullAnswer), s.dec.reading = false →
    s.src.answers = .exhausted :: rest →
    ∃ t, exec .read s = .next t ∧ t.delivered = s.delivered ++ [.dec .endOfStream none none] ∧
      t.src = { answers := rest, pulls := s.src.pulls + 1, taken := s.src.taken } ∧
      t.dec.reading = false ∧ t.dec.phase = .idle ∧
      { t with dec := s.dec, src := s.src, delivered := s.delivered, draws := s.draws } = s

/-- R112: `READ` from a source that is exhausted inside a value delivers `Truncated`; the bytes pulled stay
consumed. -/
def Obligations.ReadCutInsideValueIsTruncated : Prop :=
  ∀ (s : State) (b0 : Byte) (body : List Byte) (rest : List PullAnswer), s.dec.reading = false →
    s.src.answers = (b0 :: body).map .byte ++ .exhausted :: rest →
    body.length + 1 < 2 ^ (b0.toNat / 64) →
    ∃ t, exec .read s = .next t ∧ t.delivered = s.delivered ++ [.dec .truncated none none] ∧
      t.src = { answers := rest, pulls := s.src.pulls + (body.length + 2),
                taken := s.src.taken + (body.length + 1) } ∧
      t.dec.reading = false ∧ t.dec.phase = .idle ∧
      { t with dec := s.dec, src := s.src, delivered := s.delivered, draws := s.draws } = s

/-- R115: a failure of the source, at the first pull or at a later one of the same value, is delivered as
`Io` with the same payload; the bytes pulled stay consumed and no further pull is made. -/
def Obligations.ReadPassesSourceFailureOn : Prop :=
  ∀ (s : State) (got : List Byte) (e : IoErr) (rest : List PullAnswer), s.dec.reading = false →
    s.src.answers = got.map .byte ++ .fail e :: rest →
    (∀ b0 body, got = b0 :: body → got.length < 2 ^ (b0.toNat / 64)) →
    ∃ t, exec .read s = .next t ∧ t.delivered = s.delivered ++ [.dec (.io e) none none] ∧
      t.src = { answers := rest, pulls := s.src.pulls + (got.length + 1),
                taken := s.src.taken + got.length } ∧
      t.dec.reading = false ∧ t.dec.phase = .idle ∧
      { t with dec := s.dec, src := s.src, delivered := s.delivered, draws := s.draws } = s

/-- R198: a `READ` whose source has not answered waits, its first pull issued and no result delivered;
with no move to come a step changes nothing.
The moves to come are the model's, log entries 3 and 4. -/
def Obligations.ReadWithoutAnswerWaits : Prop :=
  (∀ s : State, s.dec.reading = false → s.src.answers = [] →
    exec .read s = .next { s with
      dec := { s.dec with reading := true, phase := .idle },
      src := { s.src with pulls := s.src.pulls + 1 } }) ∧
  ∀ s : State, s.inbox = [] → step s = .next s

/-- R117, first half: for every sequence of answers the step machine delivers what the function of R110
computes, after the same pulls, and is idle again, its registers dead (log entry 18). When the
function has no result yet, all the answers were bytes, and the machine waits with all of them taken
and nothing delivered: `DEC.phase`, `DEC.acc` and `DEC.rem` are as R114 writes them for those bytes. -/
def Obligations.ReadMachineAgreesWithFunction : Prop :=
  ∀ s : State, s.dec.reading = false →
    match readOf s.src.answers with
    | some r =>
      ∃ d : DecRegs, d.reading = false ∧ d.phase = .idle ∧
        exec .read s = .next { s with
          dec := d,
          src := { answers := r.rest, pulls := s.src.pulls + r.pulls,
                   taken := s.src.taken + r.taken },
          delivered := s.delivered ++ [match r.result with
            | .ok w => .dec .ok (some w) none
            | .error k => .dec k none none],
          draws := s.draws + 1 }
    | none =>
      ∃ got : List Byte, s.src.answers = got.map .byte ∧
        exec .read s = .next { s with
          dec := s.dec.holding got,
          src := { answers := [], pulls := s.src.pulls + got.length + 1,
                   taken := s.src.taken + got.length } }

/-- R114, R117, R129: it makes no difference whether an answer was ready when the `READ` began or comes
while the `READ` waits, and none whether the sink was ready to answer when the `WRITE` began or
answers while the `WRITE` waits. Answers ready and answers to come are the model's, log entry 4. -/
def Obligations.LateAnswerCountsAsReady : Prop :=
  (∀ (s t : State) (a : PullAnswer), s.dec.reading = false → exec .read s = .next t →
    t.dec.reading = true →
    exec .read (s.withSrc { s.src with answers := s.src.answers ++ [a] }) = .next (t.srcAnswer a)) ∧
  ∀ (s t : State) (b : SinkBeat), s.enc.phase = .idle → exec .write s = .next t →
    t.enc.phase = .pushing →
    exec .write (s.withSnk { s.snk with beats := s.snk.beats ++ [b] }) = .next (t.snkAnswer b)

/-- R117, second half: `READ` from a source that has exactly the bytes of a slice and is then exhausted
agrees with the decoding of the slice, in Value and in failure kind, with the pulls of R113. -/
def Obligations.ReadAgreesWithParse : Prop :=
  ∀ (bs : List Byte) (rest : List PullAnswer),
    readOf (bs.map .byte ++ .exhausted :: rest) =
      match decOf bs with
      | .ok (w, L) => some ⟨.ok w, L, L, (bs.drop L).map .byte ++ .exhausted :: rest⟩
      | .error m => some ⟨.error (missingStatus m), bs.length + 1, bs.length, rest⟩

/-- R145: `READ` from a source that has the canonical encoding of a Value ready gives the Value, after as
many pulls as its encoded length, whatever would be answered afterwards. -/
def Obligations.ReadOfEncodingGivesValue : Prop :=
  ∀ (v : VIn) (L : Nat) (rest : List PullAnswer), lenOf v = some L →
    ∃ w : Value, w.toNat = v.toNat ∧
      readOf ((encOf v).map .byte ++ rest) = some ⟨.ok w, L, L, rest⟩

/-- R147: from a source that has the encodings of any Values ready, one after another, that many `READ`s
deliver exactly those Values, in order, and leave what follows. -/
def Obligations.RepeatedReadGivesBackEveryValue : Prop :=
  ∀ (s : State) (ws : List Value) (rest : List PullAnswer), s.dec.reading = false →
    s.src.answers = (ws.flatMap fun w => encOf (w.setWidth 64)).map .byte ++ rest →
    ∃ t, execTimes .read ws.length s = .next t ∧ t.src.answers = rest ∧ t.dec.reading = false ∧
      t.delivered = s.delivered ++ ws.map fun w => .dec .ok (some w) none

/-! ### The stream write -/

/-- R125, R128, R148: `WRITE` of a Value to a sink that takes every byte pushes exactly its canonical
encoding, in order, and delivers `Ok`. The encoder is idle again, its other registers dead; besides
them and one draw of the free values (log entry 18) nothing else changes. -/
def Obligations.WritePushesCanonicalEncoding : Prop :=
  ∀ (s : State) (L : Nat) (beats rest : List SinkBeat), s.enc.phase = .idle →
    lenOf s.vPort = some L → beats.length = L → (∀ b ∈ beats, b.answer = .ok) →
    s.snk.beats = beats ++ rest →
    ∃ e : EncRegs, e.phase = .idle ∧
      exec .write s = .next { s with
        enc := e,
        snk := { beats := rest, offered := s.snk.offered ++ encOf s.vPort,
                 contents := s.snk.contents ++ encOf s.vPort },
        delivered := s.delivered ++ [.enc .ok none],
        draws := s.draws + 1 }

/-- R126: `WRITE` of a value above the domain delivers `OutOfRange` with no push, whatever the sink would
have answered. -/
def Obligations.WriteOutOfRangePushesNothing : Prop :=
  ∀ s : State, s.enc.phase = .idle → 4611686018427387903 < s.vPort.toNat →
    exec .write s = .next (s.deliver (.enc .outOfRange none))

/-- R127: a sink's failure is delivered as `Io` with the same payload; the pushes after it are not made;
the sink has the bytes before it for certain, and the failing byte as it decides. -/
def Obligations.WriteStopsAtSinkFailure : Prop :=
  ∀ (s : State) (L : Nat) (oks rest : List SinkBeat) (x : IoErr) (keeps : Bool),
    s.enc.phase = .idle → lenOf s.vPort = some L → oks.length < L → (∀ b ∈ oks, b.answer = .ok) →
    s.snk.beats = oks ++ ⟨.fail x, keeps⟩ :: rest →
    ∃ t, exec .write s = .next t ∧ t.delivered = s.delivered ++ [.enc (.io x) none] ∧
      t.snk = { beats := rest, offered := s.snk.offered ++ (encOf s.vPort).take (oks.length + 1),
                contents := s.snk.contents ++
                  (encOf s.vPort).take (if keeps then oks.length + 1 else oks.length) } ∧
      t.enc.phase = .idle ∧ { t with enc := s.enc, snk := s.snk, delivered := s.delivered, draws := s.draws } = s

/-- R129: for everything a sink may do the step machine delivers what the function of R125 computes, after
the same pushes, and is idle again, its registers dead (log entry 18). When the function has no
result yet, the machine waits with the next byte pushed and nothing delivered: `ENC.hold`, `ENC.len`
and `ENC.idx` are as R129 writes them. -/
def Obligations.WriteMachineAgreesWithFunction : Prop :=
  ∀ s : State, s.enc.phase = .idle →
    match writeOf s.vPort s.snk.beats with
    | some r =>
      ∃ (e : EncRegs) (n : Nat), e.phase = .idle ∧
        exec .write s = .next { s with
          enc := e,
          snk := { beats := r.rest, offered := s.snk.offered ++ r.pushed,
                   contents := s.snk.contents ++ r.kept },
          delivered := s.delivered ++ [.enc r.status none],
          draws := n }
    | none =>
      ∃ L, lenOf s.vPort = some L ∧
        exec .write s = .next { s with
          enc := { phase := .pushing, hold := wireWord L s.vPort, len := BitVec.ofNat 4 L,
                   idx := s.snk.beats.length },
          snk := { beats := [],
                   offered := s.snk.offered ++ (encOf s.vPort).take (s.snk.beats.length + 1),
                   contents := s.snk.contents ++ (encOf s.vPort).take s.snk.beats.length } }

/-- R46: a `WRITE` in flight has sampled its value: driving the port to another value changes nothing of
what it does with the sink's answer. -/
def Obligations.WriteInFlightHasSampledItsValue : Prop :=
  ∀ (s : State) (v : VIn) (b : SinkBeat), s.enc.phase = .pushing →
    (s.withVPort v).snkAnswer b = (s.snkAnswer b).withVPort v

/-! ### The machine as a whole -/

/-- R151, R165, R168: an instruction that answers a next state delivers at most one result, and only one
of a kind and shape that the matrix of R165 gives it; every instruction but `READ` and `WRITE`, which
may wait, delivers exactly one. An answer of the source or the sink delivers at most one more, and
only to a waiting `READ` or `WRITE`, of a kind the matrix gives that. The results of the wire forms
are the model's, log entry 1; that an operation waits and is answered later is log entry 4. -/
def Obligations.ResultsAreThoseOfTheInstruction : Prop :=
  (∀ (i : Instr) (s t : State), i.wf = true → exec i s = .next t →
    (t.delivered = s.delivered ∧ (i = .read ∨ i = .write)) ∨
    ∃ d, t.delivered = s.delivered ++ [d] ∧ mayDeliver i d = true) ∧
  (∀ (s : State) (a : PullAnswer),
    (s.srcAnswer a).delivered = s.delivered ∨
    s.dec.reading = true ∧
      ∃ d, (s.srcAnswer a).delivered = s.delivered ++ [d] ∧ mayDeliver .read d = true) ∧
  ∀ (s : State) (b : SinkBeat),
    (s.snkAnswer b).delivered = s.delivered ∨
    s.enc.phase = .pushing ∧
      ∃ d, (s.snkAnswer b).delivered = s.delivered ++ [d] ∧ mayDeliver .write d = true

/-- R11, R30, R36: what each instruction may change. Whatever it does, the slice, the cursor and the ports
stay; the buffer changes only by `APPEND`, the source and the decoder's registers only by `READ`, the
sink and the encoder's registers only by `WRITE`. The wire forms, which change nothing but the
results, are the model's, log entry 1. -/
def Obligations.InstructionChangesOnlyItsOwn : Prop :=
  ∀ (i : Instr) (s t : State), exec i s = .next t →
    t.slice = s.slice ∧ t.sliceHandle = s.sliceHandle ∧ t.cursor = s.cursor ∧
    t.vPort = s.vPort ∧ t.b0Port = s.b0Port ∧ t.inbox = s.inbox ∧
    (i ≠ .read → i ≠ .write → t.draws = s.draws) ∧
    (i ≠ .append → t.dst = s.dst) ∧ (i ≠ .read → t.src = s.src ∧ t.dec = s.dec) ∧
    (i ≠ .write → t.snk = s.snk ∧ t.enc = s.enc)

/-- R5, R30, R42: what each instruction depends on. Putting anything else in the place of what it does not
use changes nothing of what it does: the registers of the other unit, and both units' for the
extractor; the value port for a unit other than the encoder; the byte port for all but `TAGLEN`; the
slice and the cursor for all but `PARSE` and `PEEK`; the buffer for all but `APPEND`, and `PARSE` and
`PEEK` of the buffer; the source for all but `READ`; the sink for all but `WRITE`. The wire forms,
which use none of the spaces, are the model's, log entry 1. -/
def Obligations.InstructionDependsOnlyOnItsOwn : Prop :=
  ∀ (i : Instr) (s : State),
    (i.unit ≠ some .dec → ∀ d, exec i (s.withDec d) = onNext (fun t => t.withDec d) (exec i s)) ∧
    (i.unit ≠ some .enc → ∀ e, exec i (s.withEnc e) = onNext (fun t => t.withEnc e) (exec i s)) ∧
    (i.unit ≠ some .enc → ∀ v, exec i (s.withVPort v) = onNext (fun t => t.withVPort v) (exec i s)) ∧
    (i ≠ .taglen → ∀ b, exec i (s.withB0Port b) = onNext (fun t => t.withB0Port b) (exec i s)) ∧
    (i ≠ .parse → i ≠ .peek → ∀ h sp c, exec i ((s.withSlice h sp).withCursor c) =
      onNext (fun t => (t.withSlice h sp).withCursor c) (exec i s)) ∧
    (i ≠ .append → (i = .parse ∨ i = .peek → s.sliceHandle = .own) →
      ∀ b, exec i (s.withDst b) = onNext (fun t => t.withDst b) (exec i s)) ∧
    (i ≠ .read → ∀ x, exec i (s.withSrc x) = onNext (fun t => t.withSrc x) (exec i s)) ∧
    (i ≠ .write → ∀ x, exec i (s.withSnk x) = onNext (fun t => t.withSnk x) (exec i s))

/-- R11, R30, R44, R175: what the host hands over is what the operations then find, and nothing else
changes: a slice, with the cursor at its first byte; the cursor, from which on the slice operand is
the rest of the slice; the buffer named as the slice; a destination buffer with its capacity; the two
ports; a source and a sink, unless an operation is using the one it would replace (R42). The moves
and the form of the spaces are the model's, log entries 3, 17, 19 and 20; so is the slice operand
with the cursor past the end, entry 21, and with a new buffer while the slice shows it, entry 22. -/
def Obligations.HostHandsOverOperands : Prop :=
  ∀ s : State,
    (∀ bs, ∃ t, s.take (.giveSlice bs) = .next t ∧ t.sliceSpace.bytes = bs ∧ t.sliceBytes = bs ∧
      t.cursor = 0 ∧
      { t with slice := s.slice, sliceHandle := s.sliceHandle, cursor := s.cursor } = s) ∧
    (∀ c, ∃ t, s.take (.setCursor c) = .next t ∧ t.sliceBytes = s.sliceSpace.bytes.drop c ∧
      { t with cursor := s.cursor } = s) ∧
    (∃ t, s.take .giveDstAsSlice = .next t ∧ t.sliceBytes = s.dst.space.bytes ∧ t.cursor = 0 ∧
      { t with slice := s.slice, sliceHandle := s.sliceHandle, cursor := s.cursor } = s) ∧
    (∀ bs cap, ∃ t, s.take (.giveDst bs cap) = .next t ∧ t.dst.space.bytes = bs ∧ t.dst.cap = cap ∧
      t.sliceBytes = (if s.sliceHandle = .dst then bs.drop s.cursor else s.sliceBytes) ∧
      { t with dst := s.dst } = s) ∧
    (∀ v, s.take (.driveV v) = .next { s with vPort := v }) ∧
    (∀ b, s.take (.driveB0 b) = .next { s with b0Port := b }) ∧
    (∀ as, s.take (.giveSrc as) = if s.dec.reading = true then .refused .handleInUse
      else .next { s with src := { answers := as, pulls := 0, taken := 0 } }) ∧
    ∀ bs, s.take (.giveSnk bs) = if s.enc.phase = .pushing then .refused .handleInUse
      else .next { s with snk := { beats := bs, offered := [], contents := [] } }

/-- R16: a busy encoder refuses each of its operations, a busy decoder each of its. That the decoder also
refuses the wire forms then is the model's, log entry 1. -/
def Obligations.BusyUnitRefusesCommands : Prop :=
  ∀ (s : State) (i : Instr),
    (s.enc.phase = .pushing → i.unit = some .enc → exec i s = .refused (.busy .enc)) ∧
    (s.dec.reading = true → i.unit = some .dec → exec i s = .refused (.busy .dec))

/-- R60: the reserved code selects no operation, and so does a code at a unit that does not own it: both
are refused, with no result. -/
def Obligations.ReservedAndMisdirectedCodesAreRefused : Prop :=
  (∀ s : State, exec .reservedOp7 s = .refused .reservedOpcode) ∧
  ∀ (s : State) (u w : CodecUnit) (op : BitVec 3) (es : List Event),
    s.inbox = .present (.command u op) :: es → (decodeOp op).unit = some w → w ≠ u →
    step s = .refused .wrongUnit

/-- R175: a move of the host or the environment is given a meaning exactly when the host has kept its side
of the contract with it.
The moves are the model's, log entries 3 and 20. -/
def Obligations.MoveHasMeaningIffContractKept : Prop :=
  ∀ (s : State) (e : Event), (∃ t, s.take e = .next t) ↔ s.admits e = true

/-- Every step keeps the invariant of the machine: phases and registers of the units in step with the
streams they wait on, no bit of a value in progress lost, both byte spaces canonical, every result
of a shape the spec gives.
The bit for a `READ` in flight and the counts kept with the source and the sink are the model's, log
entries 12 and 19. -/
def Obligations.StepKeepsInvariant : Prop :=
  ∀ s t : State, s.Inv → step s = .next t → t.Inv

/-- The machine after reset meets the invariant and both units are idle (R20, R190; the values that R20
leaves unspecified are the model's choice, log entries 7 and 8, and nothing here rests on them). -/
def Obligations.ResetMeetsInvariant : Prop :=
  State.reset.Inv ∧ State.reset.idle ∧ State.reset.delivered = []

/-- R10, R14, R15, R20: a register that is dead cannot be observed: two states that differ only in dead
registers step to the same outcome, differing only in dead registers again. -/
def Obligations.DeadRegistersAreUnobservable : Prop :=
  ∀ s t : State, s.live = t.live → liveResult (step s) = liveResult (step t)

/-- R10, R169, R190: when an operation delivers its result, at once or on a later answer of its source or
sink, and whatever the result is, its unit is in the condition after a reset, which is the one it
was in before, and the other unit, busy or not, is as it was. "Condition" is that of the registers
with the dead ones blanked. The wire forms are the model's, log entry 1; late answers are log
entry 4. -/
def Obligations.UnitIsIdleAfterResult : Prop :=
  (∀ (i : Instr) (s t : State), exec i s = .next t → t.delivered ≠ s.delivered →
    (i.unit = some .dec → t.dec.live = State.reset.dec.live ∧ s.dec.live = State.reset.dec.live ∧
      t.enc = s.enc) ∧
    (i.unit = some .enc → t.enc.live = State.reset.enc.live ∧ s.enc.live = State.reset.enc.live ∧
      t.dec = s.dec) ∧
    (i.unit = some .lte → t.dec = s.dec ∧ t.enc = s.enc)) ∧
  (∀ (s : State) (a : PullAnswer), (s.srcAnswer a).delivered ≠ s.delivered →
    (s.srcAnswer a).dec.live = State.reset.dec.live ∧ (s.srcAnswer a).enc = s.enc) ∧
  ∀ (s : State) (b : SinkBeat), (s.snkAnswer b).delivered ≠ s.delivered →
    (s.snkAnswer b).enc.live = State.reset.enc.live ∧ (s.snkAnswer b).dec = s.dec

/-- R190, R191: reset makes both units idle and delivers no result; nothing of the environment changes but
the sink of an abandoned `WRITE`, which keeps the byte of the unanswered push or not, as it decides
(R127; the move carries the choice, log entry 14); at an idle block reset changes nothing alive. The
values it leaves in the registers are free, log entry 9. -/
def Obligations.ResetAbandonsOperationsInFlight : Prop :=
  ∀ (s : State) (keeps : Bool) (es : List Event), s.inbox = .reset keeps :: es →
    ∃ t, step s = .next t ∧ t.idle ∧
      { t with dec := s.dec, enc := s.enc, snk := s.snk, inbox := s.inbox, draws := s.draws } = s ∧
      t.snk = (if s.enc.phase = .pushing ∧ keeps = true then
        { s.snk with contents := s.snk.contents ++ [s.enc.byteAt s.enc.idx] } else s.snk) ∧
      (s.idle → t.live = { s.live with inbox := es, draws := t.draws })

/-- R191: a reset that strikes an `APPEND` delivers no result; the buffer's old bytes that its length still
covers stay, and so do capacity, slice, source and sink; of the rest of the buffer nothing is said.
The move and its free values are the model's, log entry 10. -/
def Obligations.ResetInAppendLeavesOldBytes : Prop :=
  ∀ s : State, s.enc.phase = .idle → s.accepts .append = true →
    ∃ t, s.take .resetInAppend = .next t ∧ t.delivered = s.delivered ∧ t.idle ∧
      t.slice = s.slice ∧ t.src = s.src ∧ t.snk = s.snk ∧ t.dst.cap = s.dst.cap ∧
      (lenOf s.vPort = none → t.dst = s.dst) ∧
      ∀ i, i < s.dst.space.len → i < t.dst.space.len → t.dst.space.read i = s.dst.space.read i

/-- R42: the units are independent: an answer of the source and an answer of the sink may come in either
order, and only the order in which the two results reach the host differs, and the free values in
dead registers (log entry 18). -/
def Obligations.SourceAndSinkAnswersCommute : Prop :=
  ∀ (s : State) (a : PullAnswer) (b : SinkBeat),
    ∃ ds es, ((s.srcAnswer a).snkAnswer b).delivered = s.delivered ++ ds ++ es ∧
      ((s.snkAnswer b).srcAnswer a).delivered = s.delivered ++ es ++ ds ∧
      { ((s.srcAnswer a).snkAnswer b).live with delivered := [] } =
        { ((s.snkAnswer b).srcAnswer a).live with delivered := [] }

/-- R160: the codes of the five statuses, and that 5, 6 and 7 are never produced. -/
def Obligations.StatusCodes : Prop :=
  Status.code .ok = 0 ∧ Status.code .outOfRange = 1 ∧ Status.code .endOfStream = 2 ∧
  Status.code .truncated = 3 ∧ (∀ e, Status.code (.io e) = 4) ∧ ∀ k, (Status.code k).toNat < 5
end

