-- ==== Sys2Proof/Laws/Codec.lean ====
section
/-! SUPPORT. The wire format: what the four functions come to as numbers. -/

namespace Sys2Proof

/-! ### Lengths -/

theorem lenOf_cases {v : VIn} {L : Nat} (h : lenOf v = some L) :
    (L = 1 ∧ v.toNat < 2 ^ 6) ∨ (L = 2 ∧ 2 ^ 6 ≤ v.toNat ∧ v.toNat < 2 ^ 14) ∨
    (L = 4 ∧ 2 ^ 14 ≤ v.toNat ∧ v.toNat < 2 ^ 30) ∨ (L = 8 ∧ 2 ^ 30 ≤ v.toNat ∧ v.toNat < 2 ^ 62) := by
  unfold lenOf at h
  split_ifs at h <;> simp only [Option.some.injEq] at h <;> omega

theorem lenOf_eq_none {v : VIn} : lenOf v = none ↔ 2 ^ 62 ≤ v.toNat := by
  unfold lenOf
  split_ifs <;> simp <;> omega

theorem tagOf_toNat (b : Byte) : (tagOf b).toNat = b.toNat / 64 := by
  have := b.isLt
  simp only [tagOf, BitVec.toNat_setWidth, BitVec.toNat_ushiftRight, Nat.shiftRight_eq_div_pow]
  omega

theorem taglen_eq (b : Byte) : taglen b = 2 ^ (b.toNat / 64) := by
  rw [taglen, tagOf_toNat, Nat.one_shiftLeft]

theorem taglen_cases (b : Byte) :
    (b.toNat < 64 ∧ taglen b = 1) ∨ (64 ≤ b.toNat ∧ b.toNat < 128 ∧ taglen b = 2) ∨
    (128 ≤ b.toNat ∧ b.toNat < 192 ∧ taglen b = 4) ∨ (192 ≤ b.toNat ∧ taglen b = 8) := by
  have hb := b.isLt
  rw [taglen_eq]
  have h : b.toNat / 64 = 0 ∨ b.toNat / 64 = 1 ∨ b.toNat / 64 = 2 ∨ b.toNat / 64 = 3 := by omega
  rcases h with h | h | h | h <;> rw [h] <;> omega

theorem taglen_pos (b : Byte) : 0 < taglen b := by
  rcases taglen_cases b with h | h | h | h <;> omega

theorem taglen_le (b : Byte) : taglen b ≤ 8 := by
  rcases taglen_cases b with h | h | h | h <;> omega

/-! ### Bytes of an encoding -/

@[simp] theorem length_encBytes (L : Nat) (v : VIn) : (encBytes L v).length = L := by simp [encBytes]

theorem encOf_eq {v : VIn} {L : Nat} (h : lenOf v = some L) : encOf v = encBytes L v := by
  simp [encOf, h]

/-- The first byte of an `L`-byte form whose payload holds the value: the tag, then the top bits. -/
theorem encByte_zero_toNat {L : Nat} {v : VIn} (hL : L = 1 ∨ L = 2 ∨ L = 4 ∨ L = 8)
    (hv : v.toNat < 2 ^ (6 + 8 * (L - 1))) :
    (encByte L v 0).toNat = 64 * codeOf L + v.toNat / 256 ^ (L - 1) := by
  have hlt := v.isLt
  simp only [encByte, BitVec.toNat_or, BitVec.toNat_shiftLeft, BitVec.toNat_ofNat, BitVec.toNat_setWidth,
    BitVec.toNat_ushiftRight, Nat.shiftRight_eq_div_pow, Nat.shiftLeft_eq]
  have hq : v.toNat / 2 ^ (8 * (L - 1)) < 2 ^ 6 := by
    apply Nat.div_lt_of_lt_mul; rw [← pow_add]; convert hv using 2; omega
  have e : (2 : Nat) ^ (8 * (L - 1)) = 256 ^ (L - 1) := by rw [pow_mul]; norm_num
  rw [← e, Nat.mod_eq_of_lt (a := _ / _) (by omega)]
  have hc : codeOf L < 4 := by rcases hL with rfl | rfl | rfl | rfl <;> decide
  have : codeOf L % 2 ^ 8 * 2 ^ 6 % 2 ^ 8 = 2 ^ 6 * codeOf L := by omega
  rw [this, ← Nat.two_pow_add_eq_or_of_lt hq]

theorem encByte_succ_toNat (L i : Nat) (v : VIn) :
    (encByte L v (i + 1)).toNat = v.toNat / 256 ^ (L - 1 - (i + 1)) % 256 := by
  simp only [encByte, BitVec.toNat_setWidth, BitVec.toNat_ushiftRight, Nat.shiftRight_eq_div_pow, pow_mul]
  norm_num

/-! ### Accumulation -/

theorem accStart_toNat (b0 : Byte) : (accStart b0).toNat = b0.toNat % 64 := by
  have hb := b0.isLt
  have h : b0.toNat &&& 63 = b0.toNat % 64 := Nat.and_two_pow_sub_one_eq_mod b0.toNat 6
  simp only [accStart, BitVec.toNat_setWidth, BitVec.toNat_and]
  rw [show (0x3F#8 : Byte).toNat = 63 from rfl, h]; omega

/-- One accumulation step loses no bit while eight bits of room are left (R153). -/
theorem accNext_toNat {acc : Value} {b : Byte} (h : acc.toNat < 2 ^ 54) :
    (accNext acc b).toNat = 256 * acc.toNat + b.toNat := by
  have hb := b.isLt
  simp only [accNext, BitVec.toNat_or, BitVec.toNat_shiftLeft, BitVec.toNat_setWidth, Nat.shiftLeft_eq]
  have e : acc.toNat * 2 ^ 8 % 2 ^ 62 = 2 ^ 8 * acc.toNat := by omega
  rw [e, Nat.mod_eq_of_lt (a := b.toNat) (by omega), ← Nat.two_pow_add_eq_or_of_lt (by omega)]

/-- The number an accumulation comes to, while the accumulator has room for it (R52, R153). -/
theorem foldl_accNext_toNat (bs : List Byte) (acc : Value)
    (h : (acc.toNat + 1) * 256 ^ bs.length ≤ 2 ^ 62) :
    (bs.foldl accNext acc).toNat = bs.foldl (fun n b => 256 * n + b.toNat) acc.toNat := by
  induction bs generalizing acc with
  | nil => rfl
  | cons b bs ih =>
    have hb := b.isLt
    have hpos : 0 < 256 ^ bs.length := by positivity
    rw [List.length_cons, pow_succ] at h
    have h54 : acc.toNat < 2 ^ 54 := by nlinarith
    have hs := accNext_toNat (b := b) h54
    rw [List.foldl_cons, List.foldl_cons, ih, hs]
    rw [hs]
    calc (256 * acc.toNat + b.toNat + 1) * 256 ^ bs.length
        ≤ (256 * (acc.toNat + 1)) * 256 ^ bs.length := Nat.mul_le_mul_right _ (by omega)
      _ ≤ 2 ^ 62 := by linarith

end Sys2Proof
namespace Sys2Proof.Machine
theorem lenPort_toNat {L : Nat} (h : L < 16) : (lenPort L).toNat = L := by
  simp [lenPort, BitVec.toNat_ofNat]; omega

/-! ### Big-endian numbers -/

theorem foldl_bigNat (bs : List Byte) (n : Nat) :
    bs.foldl (fun n b => 256 * n + b.toNat) n = n * 256 ^ bs.length + bigNat bs := by
  induction bs generalizing n with
  | nil => simp [bigNat]
  | cons b bs ih =>
    rw [bigNat, List.foldl_cons, List.foldl_cons, ih, ih (256 * 0 + b.toNat), List.length_cons, pow_succ]
    ring

@[simp] theorem bigNat_nil : bigNat [] = 0 := rfl

theorem bigNat_cons (b : Byte) (bs : List Byte) :
    bigNat (b :: bs) = b.toNat * 256 ^ bs.length + bigNat bs := by
  have h : bigNat (b :: bs) = bs.foldl (fun n b => 256 * n + b.toNat) (256 * 0 + b.toNat) := rfl
  rw [h, foldl_bigNat]; simp

theorem bigNat_append (as bs : List Byte) :
    bigNat (as ++ bs) = bigNat as * 256 ^ bs.length + bigNat bs := by
  rw [bigNat, List.foldl_append, foldl_bigNat]; rfl

theorem bigNat_lt (bs : List Byte) : bigNat bs < 256 ^ bs.length := by
  induction bs with
  | nil => simp
  | cons b bs ih =>
    have hb := b.isLt
    rw [bigNat_cons, List.length_cons, pow_succ]
    nlinarith

theorem bigNat_inj : ∀ {as bs : List Byte}, as.length = bs.length → bigNat as = bigNat bs → as = bs
  | [], [], _, _ => rfl
  | a :: as, b :: bs, hl, h => by
    have hl' : as.length = bs.length := by simpa using hl
    rw [bigNat_cons, bigNat_cons, hl'] at h
    have ha := bigNat_lt as
    have hb := bigNat_lt bs
    rw [hl'] at ha
    have hab : a.toNat = b.toNat := by
      rcases Nat.lt_trichotomy a.toNat b.toNat with hlt | he | hlt
      · nlinarith [Nat.mul_le_mul_right (256 ^ bs.length) hlt]
      · exact he
      · nlinarith [Nat.mul_le_mul_right (256 ^ bs.length) hlt]
    rw [hab] at h
    rw [BitVec.eq_of_toNat_eq hab, bigNat_inj hl' (by omega)]

/-- The payload of an encoding: its big-endian number without the tag (R52). -/
theorem bigNat_payload (b0 : Byte) (body : List Byte) :
    bigNat (b0 :: body) % 2 ^ payloadBits (body.length + 1) =
      b0.toNat % 64 * 256 ^ body.length + bigNat body := by
  have hb := bigNat_lt body
  have e : 2 ^ payloadBits (body.length + 1) = 64 * 256 ^ body.length := by
    rw [payloadBits, Nat.add_sub_cancel, pow_add, pow_mul]; norm_num
  have hm : b0.toNat % 64 < 64 := Nat.mod_lt _ (by norm_num)
  rw [bigNat_cons, e]
  have hsplit : b0.toNat * 256 ^ body.length + bigNat body =
      (b0.toNat % 64 * 256 ^ body.length + bigNat body) + 64 * 256 ^ body.length * (b0.toNat / 64) := by
    conv_lhs => rw [← Nat.div_add_mod b0.toNat 64]
    ring
  rw [hsplit, Nat.add_mul_mod_self_left, Nat.mod_eq_of_lt]
  nlinarith

/-- The Value of an accumulation over a whole encoding is the payload of its big-endian number (R52,
R100). -/
theorem accumulate_toNat (b0 : Byte) (body : List Byte) (h : body.length ≤ 7) :
    (accumulate b0 body).toNat = bigNat (b0 :: body) % 2 ^ payloadBits (body.length + 1) := by
  have hp : 256 ^ body.length ≤ 256 ^ 7 := Nat.pow_le_pow_right (by norm_num) h
  have hm : b0.toNat % 64 < 64 := Nat.mod_lt _ (by norm_num)
  rw [accumulate, foldl_accNext_toNat, foldl_bigNat, accStart_toNat, bigNat_payload]
  rw [accStart_toNat]
  calc (b0.toNat % 64 + 1) * 256 ^ body.length ≤ 64 * 256 ^ 7 := Nat.mul_le_mul (by omega) hp
    _ = 2 ^ 62 := by norm_num

/-- The big-endian number of an `L`-byte form whose payload holds the value (R52, R81). -/
theorem bigNat_encBytes {L : Nat} {v : VIn} (hL : L = 1 ∨ L = 2 ∨ L = 4 ∨ L = 8)
    (hv : v.toNat < 2 ^ payloadBits L) :
    bigNat (encBytes L v) = codeOf L * 2 ^ (8 * L - 2) + v.toNat := by
  have h0 := encByte_zero_toNat hL hv
  have hs := fun i => encByte_succ_toNat L i v
  rcases hL with rfl | rfl | rfl | rfl <;>
    simp only [encBytes, List.range, List.range.loop, List.map_cons, List.map_nil, bigNat_cons, bigNat_nil,
      h0, hs, List.length_cons, List.length_nil, codeOf, payloadBits] at hv ⊢ <;> norm_num at hv ⊢ <;> omega

end Sys2Proof.Machine
end

