-- ==== Sys2Proof/Laws/Memory.lean ====
section
/-! SUPPORT. Memory and spaces: what a read gives after a write, and that every operation keeps the
canonical form. -/

namespace Sys2Proof.Machine

/-! ### Reading after the memory operations -/

@[simp] theorem Memory.read_nil (a : Nat) : Memory.read [] a = Memory.unlisted := rfl

theorem Memory.read_erase (m : Memory) (a x : Nat) :
    Memory.read (Memory.erase m a) x = if x = a then Memory.unlisted else Memory.read m x := by
  induction m with
  | nil => simp [Memory.erase]
  | cons c m ih =>
    obtain ⟨k, b⟩ := c
    by_cases hk : k = a <;> by_cases hx : x = a <;> by_cases hkx : k = x <;>
      simp_all [Memory.erase, Memory.read]

theorem Memory.read_insert (m : Memory) (a x : Nat) (b : Byte) (hm : ∀ c ∈ m, c.1 ≠ a) :
    Memory.read (Memory.insert m a b) x = if x = a then b else Memory.read m x := by
  induction m with
  | nil =>
    rcases eq_or_ne x a with rfl | hx
    · simp [Memory.insert, Memory.read]
    · simp [Memory.insert, Memory.read, hx, hx.symm]
  | cons c m ih =>
    obtain ⟨k, d⟩ := c
    have hk : k ≠ a := hm (k, d) (by simp)
    have ih' := ih fun c hc => hm c (by simp [hc])
    by_cases hak : a < k
    · rcases eq_or_ne x a with rfl | hx
      · simp [Memory.insert, Memory.read, hak]
      · simp [Memory.insert, Memory.read, hak, hx, hx.symm]
    · rcases eq_or_ne k x with rfl | hkx
      · simp [Memory.insert, Memory.read, hak, hk]
      · simp [Memory.insert, Memory.read, hak, hkx, ih']

theorem Memory.erase_ne (m : Memory) (a : Nat) : ∀ c ∈ Memory.erase m a, c.1 ≠ a := by
  induction m with
  | nil => simp [Memory.erase]
  | cons c m ih =>
    obtain ⟨k, b⟩ := c
    rcases eq_or_ne k a with hk | hk
    · simpa only [Memory.erase, hk, if_true] using ih
    · simp only [Memory.erase, hk, if_false]
      intro c hc
      rcases List.mem_cons.1 hc with rfl | hc
      · exact hk
      · exact ih c hc

/-- A read after a write: the byte written at its index, the old byte at every other (R33). -/
theorem Memory.read_write (m : Memory) (a x : Nat) (b : Byte) :
    Memory.read (Memory.write m a b) x = if x = a then b else Memory.read m x := by
  unfold Memory.write
  split
  · next hb => rw [Memory.read_erase, hb]
  · rw [Memory.read_insert _ _ _ _ (Memory.erase_ne m a), Memory.read_erase]
    split <;> simp_all

/-- A read after writes at rising indices: the bytes written inside their range, the old bytes
outside it (R36, R41). -/
theorem Memory.read_writeAll (bs : List Byte) (m : Memory) (a x : Nat) :
    Memory.read (Memory.writeAll m a bs) x =
      if a ≤ x ∧ x < a + bs.length then bs.getD (x - a) Memory.unlisted else Memory.read m x := by
  induction bs generalizing m a with
  | nil => simp only [Memory.writeAll, List.length_nil]; rw [if_neg (by omega)]
  | cons b bs ih =>
    rw [Memory.writeAll, ih, Memory.read_write]
    rcases Nat.lt_trichotomy x a with h | h | h
    · rw [if_neg (by omega), if_neg (by omega), if_neg (by simp; omega)]
    · subst h; simp
    · have e : x - a = (x - (a + 1)) + 1 := by omega
      simp only [List.length_cons]
      by_cases h2 : x < a + (bs.length + 1)
      · rw [if_pos (by omega), if_pos (by omega), e, List.getD_cons_succ]
      · rw [if_neg (by omega), if_neg (by omega), if_neg (by omega)]

/-! ### The canonical form -/

theorem Memory.above_iff (lo : Nat) (m : Memory) : Memory.above lo m = true ↔ ∀ c ∈ m, lo ≤ c.1 := by
  simp [Memory.above]

theorem Memory.mem_erase (m : Memory) (a : Nat) : ∀ c ∈ Memory.erase m a, c ∈ m := by
  induction m with
  | nil => simp [Memory.erase]
  | cons c m ih =>
    obtain ⟨k, b⟩ := c
    by_cases hk : k = a <;> simp only [Memory.erase, hk, if_true, if_false]
    · exact fun c hc => List.mem_cons_of_mem _ (ih c hc)
    · intro c hc
      rcases List.mem_cons.1 hc with rfl | hc
      · simp
      · exact List.mem_cons_of_mem _ (ih c hc)

theorem Memory.mem_insert (m : Memory) (a : Nat) (b : Byte) :
    ∀ c ∈ Memory.insert m a b, c = (a, b) ∨ c ∈ m := by
  induction m with
  | nil => simp [Memory.insert]
  | cons c m ih =>
    obtain ⟨k, d⟩ := c
    by_cases hk : a < k
    · simp [Memory.insert, hk]
    · simp only [Memory.insert, hk, if_false]
      intro c hc
      rcases List.mem_cons.1 hc with rfl | hc
      · simp
      · rcases ih c hc with h | h <;> simp [h]

theorem Memory.wf_erase (m : Memory) (a : Nat) (h : Memory.wf m = true) :
    Memory.wf (Memory.erase m a) = true := by
  induction m with
  | nil => rfl
  | cons c m ih =>
    obtain ⟨k, b⟩ := c
    simp only [Memory.wf, Bool.and_eq_true, Memory.above_iff] at h
    by_cases hk : k = a
    · simpa [Memory.erase, hk] using ih h.2
    · simp only [Memory.erase, hk, if_false, Memory.wf, Bool.and_eq_true, Memory.above_iff]
      exact ⟨⟨h.1.1, fun c hc => h.1.2 c (Memory.mem_erase m a c hc)⟩, ih h.2⟩

theorem Memory.wf_insert (m : Memory) (a : Nat) (b : Byte) (hb : b ≠ Memory.unlisted)
    (hm : ∀ c ∈ m, c.1 ≠ a) (h : Memory.wf m = true) : Memory.wf (Memory.insert m a b) = true := by
  induction m with
  | nil => simp [Memory.insert, Memory.wf, Memory.above, hb]
  | cons c m ih =>
    obtain ⟨k, d⟩ := c
    simp only [Memory.wf, Bool.and_eq_true, Memory.above_iff, decide_eq_true_eq] at h
    by_cases hk : a < k
    · simp only [Memory.insert, hk, if_true, Memory.wf, Bool.and_eq_true, Memory.above_iff,
        decide_eq_true_eq]
      refine ⟨⟨hb, fun c hc => ?_⟩, h⟩
      rcases List.mem_cons.1 hc with rfl | hc
      · exact hk
      · have := h.1.2 c hc; omega
    · have hka : k ≠ a := hm (k, d) (by simp)
      simp only [Memory.insert, hk, if_false, Memory.wf, Bool.and_eq_true, Memory.above_iff,
        decide_eq_true_eq]
      refine ⟨⟨h.1.1, fun c hc => ?_⟩, ih (fun c hc => hm c (by simp [hc])) h.2⟩
      rcases Memory.mem_insert m a b c hc with rfl | hc
      · show k + 1 ≤ a; omega
      · exact h.1.2 c hc

/-- A write keeps the canonical form. -/
theorem Memory.wf_write (m : Memory) (a : Nat) (b : Byte) (h : Memory.wf m = true) :
    Memory.wf (Memory.write m a b) = true := by
  unfold Memory.write
  split
  · exact Memory.wf_erase m a h
  · next hb => exact Memory.wf_insert _ a b hb (Memory.erase_ne m a) (Memory.wf_erase m a h)

theorem Memory.mem_write (m : Memory) (a : Nat) (b : Byte) :
    ∀ c ∈ Memory.write m a b, c.1 = a ∨ c ∈ m := by
  intro c hc
  unfold Memory.write at hc
  split at hc
  · exact .inr (Memory.mem_erase m a c hc)
  · rcases Memory.mem_insert _ a b c hc with rfl | h
    · exact .inl rfl
    · exact .inr (Memory.mem_erase m a c h)

theorem Memory.wf_writeAll (bs : List Byte) (m : Memory) (a : Nat) (h : Memory.wf m = true) :
    Memory.wf (Memory.writeAll m a bs) = true := by
  induction bs generalizing m a with
  | nil => exact h
  | cons b bs ih => exact ih _ _ (Memory.wf_write m a b h)

theorem Memory.mem_writeAll (bs : List Byte) (m : Memory) (a : Nat) :
    ∀ c ∈ Memory.writeAll m a bs, c.1 < a + bs.length ∨ c ∈ m := by
  induction bs generalizing m a with
  | nil => exact fun c hc => .inr hc
  | cons b bs ih =>
    intro c hc
    rcases ih (Memory.write m a b) (a + 1) c hc with h | h
    · left; simp only [List.length_cons]; omega
    · rcases Memory.mem_write m a b c h with h | h
      · left; simp only [List.length_cons]; omega
      · exact .inr h

/-! ### Spaces -/

@[simp] theorem Space.length_bytes (sp : Space) : sp.bytes.length = sp.len := by simp [Space.bytes]

@[simp] theorem Space.append_len (sp : Space) (bs : List Byte) : (sp.append bs).len = sp.len + bs.length := rfl

@[simp] theorem Space.bytes_empty : Space.empty.bytes = [] := rfl

/-- A byte of a space's byte sequence is what `MemRead` gives. -/
theorem Space.bytes_get (sp : Space) (i : Nat) : sp.bytes[i]? = sp.read i := by
  by_cases h : i < sp.len <;> simp [Space.bytes, Space.read, h]

/-- All that an append does to the bytes of a space (R36): the old bytes, then the new ones. -/
theorem Space.bytes_append (sp : Space) (bs : List Byte) : (sp.append bs).bytes = sp.bytes ++ bs := by
  apply List.ext_getElem?
  intro i
  rw [Space.bytes_get, Space.read, Space.append_len, Space.append]
  simp only [Memory.read_writeAll]
  by_cases h1 : i < sp.len
  · rw [if_pos (by omega), if_neg (by omega), List.getElem?_append_left (by simpa using h1),
      Space.bytes_get, Space.read, if_pos h1]
  · rw [List.getElem?_append_right (by simpa using h1), Space.length_bytes]
    by_cases h2 : i < sp.len + bs.length
    · rw [if_pos h2, if_pos ⟨by omega, h2⟩]
      have : i - sp.len < bs.length := by omega
      simp [List.getD, this]
    · rw [if_neg h2, List.getElem?_eq_none (by omega)]

/-- The space made of given bytes holds exactly them. -/
@[simp] theorem Space.bytes_ofBytes (bs : List Byte) : (Space.ofBytes bs).bytes = bs := by
  rw [Space.ofBytes, Space.bytes_append]; rfl

@[simp] theorem Space.len_ofBytes (bs : List Byte) : (Space.ofBytes bs).len = bs.length := by
  simp [Space.ofBytes, Space.empty]

/-- An append keeps the canonical form of a space. -/
theorem Space.wf_append (sp : Space) (bs : List Byte) (h : sp.wf = true) : (sp.append bs).wf = true := by
  simp only [Space.wf, Bool.and_eq_true, List.all_eq_true] at h ⊢
  refine ⟨Memory.wf_writeAll bs _ _ h.1, fun c hc => decide_eq_true ?_⟩
  rcases Memory.mem_writeAll bs _ _ c hc with h' | h'
  · exact h'
  · have := of_decide_eq_true (h.2 c h')
    rw [Space.append_len]; omega

theorem Space.wf_ofBytes (bs : List Byte) : (Space.ofBytes bs).wf = true :=
  Space.wf_append Space.empty bs rfl

/-- The spaces of the state after reset are canonical. -/
theorem State.reset_spaces_wf : State.reset.slice.wf = true ∧ State.reset.dst.space.wf = true := ⟨rfl, rfl⟩

end Sys2Proof.Machine
end

