-- ==== Sys2Proof/Laws/State.lean ====
section
/-! SUPPORT. One lemma per field per update of the state, so that no proof unfolds an update. -/

namespace Sys2Proof.Machine

/-! ### `State.withEnc` -/

@[simp] theorem State.withEnc_enc (s : State) (e : EncRegs) : (s.withEnc e).enc = e := rfl
@[simp] theorem State.withEnc_dec (s : State) (e : EncRegs) : (s.withEnc e).dec = s.dec := rfl
@[simp] theorem State.withEnc_vPort (s : State) (e : EncRegs) : (s.withEnc e).vPort = s.vPort := rfl
@[simp] theorem State.withEnc_b0Port (s : State) (e : EncRegs) : (s.withEnc e).b0Port = s.b0Port := rfl
@[simp] theorem State.withEnc_slice (s : State) (e : EncRegs) : (s.withEnc e).slice = s.slice := rfl
@[simp] theorem State.withEnc_sliceHandle (s : State) (e : EncRegs) : (s.withEnc e).sliceHandle = s.sliceHandle := rfl
@[simp] theorem State.withEnc_cursor (s : State) (e : EncRegs) : (s.withEnc e).cursor = s.cursor := rfl
@[simp] theorem State.withEnc_dst (s : State) (e : EncRegs) : (s.withEnc e).dst = s.dst := rfl
@[simp] theorem State.withEnc_src (s : State) (e : EncRegs) : (s.withEnc e).src = s.src := rfl
@[simp] theorem State.withEnc_snk (s : State) (e : EncRegs) : (s.withEnc e).snk = s.snk := rfl
@[simp] theorem State.withEnc_delivered (s : State) (e : EncRegs) : (s.withEnc e).delivered = s.delivered := rfl
@[simp] theorem State.withEnc_inbox (s : State) (e : EncRegs) : (s.withEnc e).inbox = s.inbox := rfl
@[simp] theorem State.withEnc_draws (s : State) (e : EncRegs) : (s.withEnc e).draws = s.draws := rfl

/-! ### `State.withDec` -/

@[simp] theorem State.withDec_enc (s : State) (d : DecRegs) : (s.withDec d).enc = s.enc := rfl
@[simp] theorem State.withDec_dec (s : State) (d : DecRegs) : (s.withDec d).dec = d := rfl
@[simp] theorem State.withDec_vPort (s : State) (d : DecRegs) : (s.withDec d).vPort = s.vPort := rfl
@[simp] theorem State.withDec_b0Port (s : State) (d : DecRegs) : (s.withDec d).b0Port = s.b0Port := rfl
@[simp] theorem State.withDec_slice (s : State) (d : DecRegs) : (s.withDec d).slice = s.slice := rfl
@[simp] theorem State.withDec_sliceHandle (s : State) (d : DecRegs) : (s.withDec d).sliceHandle = s.sliceHandle := rfl
@[simp] theorem State.withDec_cursor (s : State) (d : DecRegs) : (s.withDec d).cursor = s.cursor := rfl
@[simp] theorem State.withDec_dst (s : State) (d : DecRegs) : (s.withDec d).dst = s.dst := rfl
@[simp] theorem State.withDec_src (s : State) (d : DecRegs) : (s.withDec d).src = s.src := rfl
@[simp] theorem State.withDec_snk (s : State) (d : DecRegs) : (s.withDec d).snk = s.snk := rfl
@[simp] theorem State.withDec_delivered (s : State) (d : DecRegs) : (s.withDec d).delivered = s.delivered := rfl
@[simp] theorem State.withDec_inbox (s : State) (d : DecRegs) : (s.withDec d).inbox = s.inbox := rfl
@[simp] theorem State.withDec_draws (s : State) (d : DecRegs) : (s.withDec d).draws = s.draws := rfl

/-! ### `State.withVPort` -/

@[simp] theorem State.withVPort_enc (s : State) (v : VIn) : (s.withVPort v).enc = s.enc := rfl
@[simp] theorem State.withVPort_dec (s : State) (v : VIn) : (s.withVPort v).dec = s.dec := rfl
@[simp] theorem State.withVPort_vPort (s : State) (v : VIn) : (s.withVPort v).vPort = v := rfl
@[simp] theorem State.withVPort_b0Port (s : State) (v : VIn) : (s.withVPort v).b0Port = s.b0Port := rfl
@[simp] theorem State.withVPort_slice (s : State) (v : VIn) : (s.withVPort v).slice = s.slice := rfl
@[simp] theorem State.withVPort_sliceHandle (s : State) (v : VIn) : (s.withVPort v).sliceHandle = s.sliceHandle := rfl
@[simp] theorem State.withVPort_cursor (s : State) (v : VIn) : (s.withVPort v).cursor = s.cursor := rfl
@[simp] theorem State.withVPort_dst (s : State) (v : VIn) : (s.withVPort v).dst = s.dst := rfl
@[simp] theorem State.withVPort_src (s : State) (v : VIn) : (s.withVPort v).src = s.src := rfl
@[simp] theorem State.withVPort_snk (s : State) (v : VIn) : (s.withVPort v).snk = s.snk := rfl
@[simp] theorem State.withVPort_delivered (s : State) (v : VIn) : (s.withVPort v).delivered = s.delivered := rfl
@[simp] theorem State.withVPort_inbox (s : State) (v : VIn) : (s.withVPort v).inbox = s.inbox := rfl
@[simp] theorem State.withVPort_draws (s : State) (v : VIn) : (s.withVPort v).draws = s.draws := rfl

/-! ### `State.withB0Port` -/

@[simp] theorem State.withB0Port_enc (s : State) (b : Byte) : (s.withB0Port b).enc = s.enc := rfl
@[simp] theorem State.withB0Port_dec (s : State) (b : Byte) : (s.withB0Port b).dec = s.dec := rfl
@[simp] theorem State.withB0Port_vPort (s : State) (b : Byte) : (s.withB0Port b).vPort = s.vPort := rfl
@[simp] theorem State.withB0Port_b0Port (s : State) (b : Byte) : (s.withB0Port b).b0Port = b := rfl
@[simp] theorem State.withB0Port_slice (s : State) (b : Byte) : (s.withB0Port b).slice = s.slice := rfl
@[simp] theorem State.withB0Port_sliceHandle (s : State) (b : Byte) : (s.withB0Port b).sliceHandle = s.sliceHandle := rfl
@[simp] theorem State.withB0Port_cursor (s : State) (b : Byte) : (s.withB0Port b).cursor = s.cursor := rfl
@[simp] theorem State.withB0Port_dst (s : State) (b : Byte) : (s.withB0Port b).dst = s.dst := rfl
@[simp] theorem State.withB0Port_src (s : State) (b : Byte) : (s.withB0Port b).src = s.src := rfl
@[simp] theorem State.withB0Port_snk (s : State) (b : Byte) : (s.withB0Port b).snk = s.snk := rfl
@[simp] theorem State.withB0Port_delivered (s : State) (b : Byte) : (s.withB0Port b).delivered = s.delivered := rfl
@[simp] theorem State.withB0Port_inbox (s : State) (b : Byte) : (s.withB0Port b).inbox = s.inbox := rfl
@[simp] theorem State.withB0Port_draws (s : State) (b : Byte) : (s.withB0Port b).draws = s.draws := rfl

/-! ### `State.withSlice` -/

@[simp] theorem State.withSlice_enc (s : State) (h : SliceHandle) (sp : Space) : (s.withSlice h sp).enc = s.enc := rfl
@[simp] theorem State.withSlice_dec (s : State) (h : SliceHandle) (sp : Space) : (s.withSlice h sp).dec = s.dec := rfl
@[simp] theorem State.withSlice_vPort (s : State) (h : SliceHandle) (sp : Space) : (s.withSlice h sp).vPort = s.vPort := rfl
@[simp] theorem State.withSlice_b0Port (s : State) (h : SliceHandle) (sp : Space) : (s.withSlice h sp).b0Port = s.b0Port := rfl
@[simp] theorem State.withSlice_slice (s : State) (h : SliceHandle) (sp : Space) : (s.withSlice h sp).slice = sp := rfl
@[simp] theorem State.withSlice_sliceHandle (s : State) (h : SliceHandle) (sp : Space) : (s.withSlice h sp).sliceHandle = h := rfl
@[simp] theorem State.withSlice_cursor (s : State) (h : SliceHandle) (sp : Space) : (s.withSlice h sp).cursor = 0 := rfl
@[simp] theorem State.withSlice_dst (s : State) (h : SliceHandle) (sp : Space) : (s.withSlice h sp).dst = s.dst := rfl
@[simp] theorem State.withSlice_src (s : State) (h : SliceHandle) (sp : Space) : (s.withSlice h sp).src = s.src := rfl
@[simp] theorem State.withSlice_snk (s : State) (h : SliceHandle) (sp : Space) : (s.withSlice h sp).snk = s.snk := rfl
@[simp] theorem State.withSlice_delivered (s : State) (h : SliceHandle) (sp : Space) : (s.withSlice h sp).delivered = s.delivered := rfl
@[simp] theorem State.withSlice_inbox (s : State) (h : SliceHandle) (sp : Space) : (s.withSlice h sp).inbox = s.inbox := rfl
@[simp] theorem State.withSlice_draws (s : State) (h : SliceHandle) (sp : Space) : (s.withSlice h sp).draws = s.draws := rfl

/-! ### `State.withCursor` -/

@[simp] theorem State.withCursor_enc (s : State) (c : Nat) : (s.withCursor c).enc = s.enc := rfl
@[simp] theorem State.withCursor_dec (s : State) (c : Nat) : (s.withCursor c).dec = s.dec := rfl
@[simp] theorem State.withCursor_vPort (s : State) (c : Nat) : (s.withCursor c).vPort = s.vPort := rfl
@[simp] theorem State.withCursor_b0Port (s : State) (c : Nat) : (s.withCursor c).b0Port = s.b0Port := rfl
@[simp] theorem State.withCursor_slice (s : State) (c : Nat) : (s.withCursor c).slice = s.slice := rfl
@[simp] theorem State.withCursor_sliceHandle (s : State) (c : Nat) : (s.withCursor c).sliceHandle = s.sliceHandle := rfl
@[simp] theorem State.withCursor_cursor (s : State) (c : Nat) : (s.withCursor c).cursor = c := rfl
@[simp] theorem State.withCursor_dst (s : State) (c : Nat) : (s.withCursor c).dst = s.dst := rfl
@[simp] theorem State.withCursor_src (s : State) (c : Nat) : (s.withCursor c).src = s.src := rfl
@[simp] theorem State.withCursor_snk (s : State) (c : Nat) : (s.withCursor c).snk = s.snk := rfl
@[simp] theorem State.withCursor_delivered (s : State) (c : Nat) : (s.withCursor c).delivered = s.delivered := rfl
@[simp] theorem State.withCursor_inbox (s : State) (c : Nat) : (s.withCursor c).inbox = s.inbox := rfl
@[simp] theorem State.withCursor_draws (s : State) (c : Nat) : (s.withCursor c).draws = s.draws := rfl

/-! ### `State.withDst` -/

@[simp] theorem State.withDst_enc (s : State) (d : Buffer) : (s.withDst d).enc = s.enc := rfl
@[simp] theorem State.withDst_dec (s : State) (d : Buffer) : (s.withDst d).dec = s.dec := rfl
@[simp] theorem State.withDst_vPort (s : State) (d : Buffer) : (s.withDst d).vPort = s.vPort := rfl
@[simp] theorem State.withDst_b0Port (s : State) (d : Buffer) : (s.withDst d).b0Port = s.b0Port := rfl
@[simp] theorem State.withDst_slice (s : State) (d : Buffer) : (s.withDst d).slice = s.slice := rfl
@[simp] theorem State.withDst_sliceHandle (s : State) (d : Buffer) : (s.withDst d).sliceHandle = s.sliceHandle := rfl
@[simp] theorem State.withDst_cursor (s : State) (d : Buffer) : (s.withDst d).cursor = s.cursor := rfl
@[simp] theorem State.withDst_dst (s : State) (d : Buffer) : (s.withDst d).dst = d := rfl
@[simp] theorem State.withDst_src (s : State) (d : Buffer) : (s.withDst d).src = s.src := rfl
@[simp] theorem State.withDst_snk (s : State) (d : Buffer) : (s.withDst d).snk = s.snk := rfl
@[simp] theorem State.withDst_delivered (s : State) (d : Buffer) : (s.withDst d).delivered = s.delivered := rfl
@[simp] theorem State.withDst_inbox (s : State) (d : Buffer) : (s.withDst d).inbox = s.inbox := rfl
@[simp] theorem State.withDst_draws (s : State) (d : Buffer) : (s.withDst d).draws = s.draws := rfl

/-! ### `State.withSrc` -/

@[simp] theorem State.withSrc_enc (s : State) (x : Source) : (s.withSrc x).enc = s.enc := rfl
@[simp] theorem State.withSrc_dec (s : State) (x : Source) : (s.withSrc x).dec = s.dec := rfl
@[simp] theorem State.withSrc_vPort (s : State) (x : Source) : (s.withSrc x).vPort = s.vPort := rfl
@[simp] theorem State.withSrc_b0Port (s : State) (x : Source) : (s.withSrc x).b0Port = s.b0Port := rfl
@[simp] theorem State.withSrc_slice (s : State) (x : Source) : (s.withSrc x).slice = s.slice := rfl
@[simp] theorem State.withSrc_sliceHandle (s : State) (x : Source) : (s.withSrc x).sliceHandle = s.sliceHandle := rfl
@[simp] theorem State.withSrc_cursor (s : State) (x : Source) : (s.withSrc x).cursor = s.cursor := rfl
@[simp] theorem State.withSrc_dst (s : State) (x : Source) : (s.withSrc x).dst = s.dst := rfl
@[simp] theorem State.withSrc_src (s : State) (x : Source) : (s.withSrc x).src = x := rfl
@[simp] theorem State.withSrc_snk (s : State) (x : Source) : (s.withSrc x).snk = s.snk := rfl
@[simp] theorem State.withSrc_delivered (s : State) (x : Source) : (s.withSrc x).delivered = s.delivered := rfl
@[simp] theorem State.withSrc_inbox (s : State) (x : Source) : (s.withSrc x).inbox = s.inbox := rfl
@[simp] theorem State.withSrc_draws (s : State) (x : Source) : (s.withSrc x).draws = s.draws := rfl

/-! ### `State.withSnk` -/

@[simp] theorem State.withSnk_enc (s : State) (x : Sink) : (s.withSnk x).enc = s.enc := rfl
@[simp] theorem State.withSnk_dec (s : State) (x : Sink) : (s.withSnk x).dec = s.dec := rfl
@[simp] theorem State.withSnk_vPort (s : State) (x : Sink) : (s.withSnk x).vPort = s.vPort := rfl
@[simp] theorem State.withSnk_b0Port (s : State) (x : Sink) : (s.withSnk x).b0Port = s.b0Port := rfl
@[simp] theorem State.withSnk_slice (s : State) (x : Sink) : (s.withSnk x).slice = s.slice := rfl
@[simp] theorem State.withSnk_sliceHandle (s : State) (x : Sink) : (s.withSnk x).sliceHandle = s.sliceHandle := rfl
@[simp] theorem State.withSnk_cursor (s : State) (x : Sink) : (s.withSnk x).cursor = s.cursor := rfl
@[simp] theorem State.withSnk_dst (s : State) (x : Sink) : (s.withSnk x).dst = s.dst := rfl
@[simp] theorem State.withSnk_src (s : State) (x : Sink) : (s.withSnk x).src = s.src := rfl
@[simp] theorem State.withSnk_snk (s : State) (x : Sink) : (s.withSnk x).snk = x := rfl
@[simp] theorem State.withSnk_delivered (s : State) (x : Sink) : (s.withSnk x).delivered = s.delivered := rfl
@[simp] theorem State.withSnk_inbox (s : State) (x : Sink) : (s.withSnk x).inbox = s.inbox := rfl
@[simp] theorem State.withSnk_draws (s : State) (x : Sink) : (s.withSnk x).draws = s.draws := rfl

/-! ### `State.withInbox` -/

@[simp] theorem State.withInbox_enc (s : State) (es : List Event) : (s.withInbox es).enc = s.enc := rfl
@[simp] theorem State.withInbox_dec (s : State) (es : List Event) : (s.withInbox es).dec = s.dec := rfl
@[simp] theorem State.withInbox_vPort (s : State) (es : List Event) : (s.withInbox es).vPort = s.vPort := rfl
@[simp] theorem State.withInbox_b0Port (s : State) (es : List Event) : (s.withInbox es).b0Port = s.b0Port := rfl
@[simp] theorem State.withInbox_slice (s : State) (es : List Event) : (s.withInbox es).slice = s.slice := rfl
@[simp] theorem State.withInbox_sliceHandle (s : State) (es : List Event) : (s.withInbox es).sliceHandle = s.sliceHandle := rfl
@[simp] theorem State.withInbox_cursor (s : State) (es : List Event) : (s.withInbox es).cursor = s.cursor := rfl
@[simp] theorem State.withInbox_dst (s : State) (es : List Event) : (s.withInbox es).dst = s.dst := rfl
@[simp] theorem State.withInbox_src (s : State) (es : List Event) : (s.withInbox es).src = s.src := rfl
@[simp] theorem State.withInbox_snk (s : State) (es : List Event) : (s.withInbox es).snk = s.snk := rfl
@[simp] theorem State.withInbox_delivered (s : State) (es : List Event) : (s.withInbox es).delivered = s.delivered := rfl
@[simp] theorem State.withInbox_inbox (s : State) (es : List Event) : (s.withInbox es).inbox = es := rfl
@[simp] theorem State.withInbox_draws (s : State) (es : List Event) : (s.withInbox es).draws = s.draws := rfl

/-! ### `State.draw` -/

@[simp] theorem State.draw_enc (s : State) : (s.draw).enc = s.enc := rfl
@[simp] theorem State.draw_dec (s : State) : (s.draw).dec = s.dec := rfl
@[simp] theorem State.draw_vPort (s : State) : (s.draw).vPort = s.vPort := rfl
@[simp] theorem State.draw_b0Port (s : State) : (s.draw).b0Port = s.b0Port := rfl
@[simp] theorem State.draw_slice (s : State) : (s.draw).slice = s.slice := rfl
@[simp] theorem State.draw_sliceHandle (s : State) : (s.draw).sliceHandle = s.sliceHandle := rfl
@[simp] theorem State.draw_cursor (s : State) : (s.draw).cursor = s.cursor := rfl
@[simp] theorem State.draw_dst (s : State) : (s.draw).dst = s.dst := rfl
@[simp] theorem State.draw_src (s : State) : (s.draw).src = s.src := rfl
@[simp] theorem State.draw_snk (s : State) : (s.draw).snk = s.snk := rfl
@[simp] theorem State.draw_delivered (s : State) : (s.draw).delivered = s.delivered := rfl
@[simp] theorem State.draw_inbox (s : State) : (s.draw).inbox = s.inbox := rfl
@[simp] theorem State.draw_draws (s : State) : (s.draw).draws = s.draws + 1 := rfl

/-! ### `State.deliver` -/

@[simp] theorem State.deliver_enc (s : State) (d : Delivery) : (s.deliver d).enc = s.enc := rfl
@[simp] theorem State.deliver_dec (s : State) (d : Delivery) : (s.deliver d).dec = s.dec := rfl
@[simp] theorem State.deliver_vPort (s : State) (d : Delivery) : (s.deliver d).vPort = s.vPort := rfl
@[simp] theorem State.deliver_b0Port (s : State) (d : Delivery) : (s.deliver d).b0Port = s.b0Port := rfl
@[simp] theorem State.deliver_slice (s : State) (d : Delivery) : (s.deliver d).slice = s.slice := rfl
@[simp] theorem State.deliver_sliceHandle (s : State) (d : Delivery) : (s.deliver d).sliceHandle = s.sliceHandle := rfl
@[simp] theorem State.deliver_cursor (s : State) (d : Delivery) : (s.deliver d).cursor = s.cursor := rfl
@[simp] theorem State.deliver_dst (s : State) (d : Delivery) : (s.deliver d).dst = s.dst := rfl
@[simp] theorem State.deliver_src (s : State) (d : Delivery) : (s.deliver d).src = s.src := rfl
@[simp] theorem State.deliver_snk (s : State) (d : Delivery) : (s.deliver d).snk = s.snk := rfl
@[simp] theorem State.deliver_delivered (s : State) (d : Delivery) : (s.deliver d).delivered = s.delivered ++ [d] := rfl
@[simp] theorem State.deliver_inbox (s : State) (d : Delivery) : (s.deliver d).inbox = s.inbox := rfl
@[simp] theorem State.deliver_draws (s : State) (d : Delivery) : (s.deliver d).draws = s.draws := rfl

/-! ### `State.idleDec`, `State.idleEnc`

What is known of the registers outside an operation. Of the free values nothing is. -/

@[simp] theorem State.idleDec_reading (s : State) : s.idleDec.reading = false := rfl
@[simp] theorem State.idleDec_phase (s : State) : s.idleDec.phase = .idle := rfl
@[simp] theorem State.idleEnc_phase (s : State) : s.idleEnc.phase = .idle := rfl

/-! ### `State.raise` -/

@[simp] theorem State.raise_enc (s : State) (k : Status) : s.raise .enc k = s.deliver (.enc k none) := rfl
@[simp] theorem State.raise_dec (s : State) (k : Status) : s.raise .dec k = s.deliver (.dec k none none) := rfl
@[simp] theorem State.raise_lte (s : State) (k : Status) : s.raise .lte k = s := rfl

end Sys2Proof.Machine
end

