-- ==== Sys2Proof/Laws/Ops.lean ====
section
/-! SUPPORT. The shared operations: for each, once, all that it can do. -/

namespace Sys2Proof.Machine

/-! ### Accepting a command -/

theorem State.atEnc_idle {s : State} {f : State → Result} (h : s.enc.phase = .idle) : s.atEnc f = f s := by
  simp [State.atEnc, State.encBusy, h]

theorem State.atEnc_busy {s : State} {f : State → Result} (h : s.enc.phase = .pushing) :
    s.atEnc f = .refused (.busy .enc) := by
  simp [State.atEnc, State.encBusy, h]

theorem State.atDec_idle {s : State} {f : State → Result} (h : s.dec.reading = false) : s.atDec f = f s := by
  simp [State.atDec, State.decBusy, h]

theorem State.atDec_busy {s : State} {f : State → Result} (h : s.dec.reading = true) :
    s.atDec f = .refused (.busy .dec) := by
  simp [State.atDec, State.decBusy, h]

/-- A command accepted at the encoder found it idle. -/
theorem State.atEnc_next {s t : State} {f : State → Result} (h : s.atEnc f = .next t) :
    s.enc.phase = .idle ∧ f s = .next t := by
  cases hp : s.enc.phase with
  | idle => exact ⟨rfl, by rwa [State.atEnc_idle hp] at h⟩
  | pushing => rw [State.atEnc_busy hp] at h; cases h

/-- A command accepted at the decoder found it idle. -/
theorem State.atDec_next {s t : State} {f : State → Result} (h : s.atDec f = .next t) :
    s.dec.reading = false ∧ f s = .next t := by
  cases hp : s.dec.reading with
  | false => exact ⟨rfl, by rwa [State.atDec_idle hp] at h⟩
  | true => rw [State.atDec_busy hp] at h; cases h

/-! ### Decoding the slice -/

/-- All that decoding the slice can do: deliver a result made of the Value and the declared length, or
the failure for the bytes that are missing. -/
theorem State.decodeSlice_cases (s : State) (out : Value → Nat → Delivery) :
    (∃ v L, decOf s.sliceBytes = .ok (v, L) ∧ s.decodeSlice out = .next (s.deliver (out v L))) ∨
    (∃ m, decOf s.sliceBytes = .error m ∧
      s.decodeSlice out = .next (s.deliver (.dec (missingStatus m) none none))) := by
  cases h : decOf s.sliceBytes with
  | error m => exact .inr ⟨m, rfl, by simp [State.decodeSlice, h]⟩
  | ok r => exact .inl ⟨r.1, r.2, rfl, by simp [State.decodeSlice, h]⟩

/-- All that a wire form can do at the decoder. -/
theorem State.takeForm_next {s t : State} {L : Nat} {v : Value} (h : s.takeForm L v = .next t) :
    s.dec.reading = false ∧ t = s.deliver (.dec .ok (some v) (some (lenPort L))) := by
  obtain ⟨h1, h2⟩ := State.atDec_next h
  simp only [Host.Outcome.next.injEq] at h2
  exact ⟨h1, h2.symm⟩

/-! ### Beats of a `READ` -/

/-- What a beat of a `READ` accumulates: byte 0 in phase `Idle`, a further byte in phase `Body` (R114). -/
def readsByte (s : State) (a : PullAnswer) (acc : BitVec 62) (rem : BitVec 3) : Prop :=
  ∃ b, a = .byte b ∧
    ((s.dec.phase = .idle ∧ acc = accStart b ∧ rem = BitVec.ofNat 3 (taglen b - 1)) ∨
     (s.dec.phase = .body ∧ acc = accNext s.dec.acc b ∧ rem = s.dec.rem - 1))

/-- The result with which a beat of a `READ` that brings no byte ends it (R111, R112, R115). -/
def readsFailure (s : State) : PullAnswer → Status → Prop
  | .byte _, _ => False
  | .exhausted, k => k = match s.dec.phase with | .idle => .endOfStream | .body => .truncated
  | .fail e, k => k = .io e

/-- All that one beat of a `READ` can do (R114): take the last byte and deliver the Value; take a byte
and issue the next pull; or end with a failure. -/
theorem State.readBeat_cases (s : State) (a : PullAnswer) :
    (∃ acc, readsByte s a acc 0 ∧ s.readBeat a = { s with
      dec := s.idleDec, src := { s.src with taken := s.src.taken + 1 },
      delivered := s.delivered ++ [.dec .ok (some acc) none], draws := s.draws + 1 }) ∨
    (∃ acc rem, rem ≠ 0 ∧ readsByte s a acc rem ∧ s.readBeat a = { s with
      dec := ⟨s.dec.reading, .body, acc, rem⟩,
      src := { s.src with taken := s.src.taken + 1, pulls := s.src.pulls + 1 } }) ∨
    (∃ k, readsFailure s a k ∧ s.readBeat a = { s with
      dec := s.idleDec, delivered := s.delivered ++ [.dec k none none], draws := s.draws + 1 }) := by
  have byteCase : ∀ acc rem, readsByte s a acc rem → s.readBeat a = s.afterByte acc rem →
      (∃ acc, readsByte s a acc 0 ∧ s.readBeat a = { s with
        dec := s.idleDec, src := { s.src with taken := s.src.taken + 1 },
        delivered := s.delivered ++ [.dec .ok (some acc) none], draws := s.draws + 1 }) ∨
      (∃ acc rem, rem ≠ 0 ∧ readsByte s a acc rem ∧ s.readBeat a = { s with
        dec := ⟨s.dec.reading, .body, acc, rem⟩,
        src := { s.src with taken := s.src.taken + 1, pulls := s.src.pulls + 1 } }) := by
    intro acc rem hr he
    by_cases h0 : rem = 0
    · subst h0; exact .inl ⟨acc, hr, by rw [he]; rfl⟩
    · exact .inr ⟨acc, rem, h0, hr, by rw [he, State.afterByte, if_neg h0]; rfl⟩
  cases hp : s.dec.phase <;> cases a with
  | byte b =>
    have := byteCase _ _ ⟨b, rfl, by first | exact .inl ⟨hp, rfl, rfl⟩ | exact .inr ⟨hp, rfl, rfl⟩⟩
      (by simp only [State.readBeat, hp])
    rcases this with h | h
    · exact .inl h
    · exact .inr (.inl h)
  | exhausted =>
    refine .inr (.inr ⟨_, rfl, ?_⟩)
    simp only [State.readBeat, hp]; rfl
  | fail e =>
    refine .inr (.inr ⟨_, rfl, ?_⟩)
    simp only [State.readBeat, hp]; rfl

theorem readRun_nil (s : State) : readRun [] s = s.withSrc { s.src with answers := [] } := rfl

theorem readRun_cons_busy {s : State} (a : PullAnswer) (as : List PullAnswer) (h : s.dec.reading = true) :
    readRun (a :: as) s = readRun as (s.readBeat a) := by simp [readRun, h]

theorem readRun_cons_idle {s : State} (a : PullAnswer) (as : List PullAnswer) (h : s.dec.reading = false) :
    readRun (a :: as) s = s.withSrc { s.src with answers := a :: as } := by simp [readRun, h]

/-- Answers that find no `READ` in flight stay with the source. -/
theorem readRun_idle {s : State} (as : List PullAnswer) (h : s.dec.reading = false) :
    readRun as s = s.withSrc { s.src with answers := as } := by
  cases as with
  | nil => rfl
  | cons a as => exact readRun_cons_idle a as h

/-- All that answers can do: change the decoder's registers and the source, and deliver at most one
result, a Value or a failure of the decoder, with one draw of the free values; a decoder still
reading has taken them all. -/
theorem readRun_frame (as : List PullAnswer) (s : State) :
    ∃ d x ds, readRun as s = { s with
        dec := d, src := x, delivered := s.delivered ++ ds, draws := s.draws + ds.length } ∧
      (d.reading = true → x.answers = [] ∧ ds = [] ∧ s.dec.reading = true) ∧
      (s.dec.reading = true → d.reading = false → ds ≠ [] ∧ d.phase = .idle) ∧
      (ds = [] ∨ (∃ w, ds = [.dec .ok (some w) none]) ∨
        ∃ k, (k = .endOfStream ∨ k = .truncated ∨ ∃ e, k = .io e) ∧ ds = [.dec k none none]) := by
  induction as generalizing s with
  | nil => exact ⟨s.dec, _, [], by rw [readRun_nil, List.append_nil]; rfl, by simp,
      fun h h' => by simp_all, .inl rfl⟩
  | cons a as ih =>
    cases hr : s.dec.reading with
    | false => exact ⟨s.dec, _, [], by rw [readRun_cons_idle _ _ hr, List.append_nil]; rfl,
        by simp [hr], by simp, .inl rfl⟩
    | true =>
      rw [readRun_cons_busy _ _ hr]
      rcases s.readBeat_cases a with ⟨acc, -, he⟩ | ⟨acc, rem, h0, -, he⟩ | ⟨k, hk, he⟩
      · rw [he, readRun_idle _ rfl]
        exact ⟨_, _, _, rfl, by simp, by simp, .inr (.inl ⟨acc, rfl⟩)⟩
      · rw [he]
        obtain ⟨d, x, ds, h1, h2, h3, h4⟩ := ih { s with
          dec := ⟨s.dec.reading, .body, acc, rem⟩,
          src := { s.src with taken := s.src.taken + 1, pulls := s.src.pulls + 1 } }
        exact ⟨d, x, ds, h1, fun h => ⟨(h2 h).1, (h2 h).2.1, rfl⟩, fun _ h => h3 hr h, h4⟩
      · rw [he, readRun_idle _ rfl]
        refine ⟨_, _, _, rfl, by simp, by simp, .inr (.inr ⟨k, ?_, rfl⟩)⟩
        cases a with
        | byte b => exact hk.elim
        | exhausted => cases hp : s.dec.phase <;> simp [readsFailure, hp] at hk <;> simp [hk]
        | fail e => exact .inr (.inr ⟨e, hk⟩)

/-! ### Beats of a `WRITE` -/

/-- The bytes a sink has of a push: the byte if it took it, or kept it though it failed (R39). -/
def SinkBeat.has (b : SinkBeat) (e : Byte) : List Byte :=
  match b.answer with
  | .ok => [e]
  | .fail _ => if b.keeps then [e] else []

/-- All that one beat of a `WRITE` can do (R129): the last byte is taken and `Ok` delivered; a byte is
taken and the next one pushed; or the sink's failure is delivered. -/
theorem State.writeBeat_cases (s : State) (b : SinkBeat) :
    (b.answer = .ok ∧ s.enc.idx + 1 = s.enc.len.toNat ∧ s.writeBeat b = { s with
      enc := s.idleEnc,
      snk := { s.snk with contents := s.snk.contents ++ [s.enc.byteAt s.enc.idx] },
      delivered := s.delivered ++ [.enc .ok none], draws := s.draws + 1 }) ∨
    (b.answer = .ok ∧ s.enc.idx + 1 ≠ s.enc.len.toNat ∧ s.writeBeat b = { s with
      enc := { s.enc with idx := s.enc.idx + 1 },
      snk := { s.snk with contents := s.snk.contents ++ [s.enc.byteAt s.enc.idx],
                          offered := s.snk.offered ++ [s.enc.byteAt (s.enc.idx + 1)] } }) ∨
    (∃ x, b.answer = .fail x ∧ s.writeBeat b = { s with
      enc := s.idleEnc,
      snk := { s.snk with contents := s.snk.contents ++ b.has (s.enc.byteAt s.enc.idx) },
      delivered := s.delivered ++ [.enc (.io x) none], draws := s.draws + 1 }) := by
  cases h : b.answer with
  | ok =>
    by_cases hl : s.enc.idx + 1 = s.enc.len.toNat
    · refine .inl ⟨rfl, hl, ?_⟩
      simp only [State.writeBeat, h, if_pos hl]; rfl
    · refine .inr (.inl ⟨rfl, hl, ?_⟩)
      simp only [State.writeBeat, h, if_neg hl]; rfl
  | fail x =>
    refine .inr (.inr ⟨x, rfl, ?_⟩)
    cases hk : b.keeps <;> simp only [State.writeBeat, State.sinkMayHold, SinkBeat.has, h, hk, if_true] <;>
      simp [State.endWrite, State.idleEnc, State.sinkHolds, State.withEnc, State.withSnk, State.draw,
        State.deliver]

theorem writeRun_nil (s : State) : writeRun [] s = s.withSnk { s.snk with beats := [] } := rfl

theorem writeRun_cons_busy {s : State} (b : SinkBeat) (bs : List SinkBeat) (h : s.enc.phase = .pushing) :
    writeRun (b :: bs) s = writeRun bs (s.writeBeat b) := by simp [writeRun, State.encBusy, h]

/-- What a sink would do at pushes not made stays with it. -/
theorem writeRun_idle {s : State} (bs : List SinkBeat) (h : s.enc.phase = .idle) :
    writeRun bs s = s.withSnk { s.snk with beats := bs } := by
  cases bs with
  | nil => rfl
  | cons b bs => simp [writeRun, State.encBusy, h]

/-- All that a sink's beats can do: change the encoder's registers and the sink, and deliver at most one
result, `Ok` or the sink's failure, with one draw of the free values; an encoder still pushing has
taken them all. -/
theorem writeRun_frame (bs : List SinkBeat) (s : State) :
    ∃ e x ds, writeRun bs s = { s with
        enc := e, snk := x, delivered := s.delivered ++ ds, draws := s.draws + ds.length } ∧
      (e.phase = .pushing → x.beats = [] ∧ ds = [] ∧ s.enc.phase = .pushing) ∧
      (s.enc.phase = .pushing → e.phase = .idle → ds ≠ []) ∧
      (ds = [] ∨ ds = [.enc .ok none] ∨ ∃ f, ds = [.enc (.io f) none]) := by
  induction bs generalizing s with
  | nil => exact ⟨s.enc, _, [], by rw [writeRun_nil, List.append_nil]; rfl, by simp,
      fun h h' => by simp_all, .inl rfl⟩
  | cons b bs ih =>
    cases hr : s.enc.phase with
    | idle => exact ⟨s.enc, _, [], by rw [writeRun_idle _ hr, List.append_nil]; rfl,
        by simp [hr], by simp, .inl rfl⟩
    | pushing =>
      rw [writeRun_cons_busy _ _ hr]
      rcases s.writeBeat_cases b with ⟨-, -, he⟩ | ⟨-, -, he⟩ | ⟨x, -, he⟩
      · rw [he, writeRun_idle _ rfl]
        exact ⟨_, _, _, rfl, by simp, by simp, .inr (.inl rfl)⟩
      · rw [he]
        obtain ⟨e, x, ds, h1, h2, h3, h4⟩ := ih { s with
          enc := { s.enc with idx := s.enc.idx + 1 },
          snk := { s.snk with contents := s.snk.contents ++ [s.enc.byteAt s.enc.idx],
                              offered := s.snk.offered ++ [s.enc.byteAt (s.enc.idx + 1)] } }
        exact ⟨e, x, ds, h1, fun h => ⟨(h2 h).1, (h2 h).2.1, rfl⟩, fun _ h => h3 hr h, h4⟩
      · rw [he, writeRun_idle _ rfl]
        exact ⟨_, _, _, rfl, by simp, by simp, .inr (.inr ⟨x, rfl⟩)⟩

end Sys2Proof.Machine
end

