-- ==== Sys2Proof/Laws/PerInstr.lean ====
section
/-! SUPPORT. One family of laws per instruction: the slot that presents an instruction says by itself how
wide it is and where it goes. -/

namespace Sys2Proof.Laws.SlotWidth

/-- The bits a slot takes: 3 for an operation code (R60), 8 for each byte of an encoding (R50). -/
def slotBits : Slot → Nat
  | .command _ _ => 3
  | .encoding bs => 8 * bs.length

/-- The width of an instruction's row in the opcode table. -/
def rowBits : Instr → Nat
  | .len => 3
  | .append => 3
  | .parse => 3
  | .peek => 3
  | .read => 3
  | .write => 3
  | .taglen => 3
  | .reservedOp7 => 3
  | .vi1 _ => 8
  | .vi2 _ => 16
  | .vi4 _ => 32
  | .vi8 _ => 64

/-- The slot says by itself where it goes: a code stands at the unit that owns it; the first byte of an
encoding declares how many bytes there are (R53). -/
def saysItself (i : Instr) : Slot → Prop
  | .command u _ => i.unit = some u ∨ i.unit = none
  | .encoding [] => False
  | .encoding (b0 :: rest) => taglen b0 = rest.length + 1

/-- An instruction's slot has the width of its row, and says so itself if the instruction is well
formed. -/
def Statement (i : Instr) : Prop :=
  slotBits (encode i) = rowBits i ∧ (i.wf = true → saysItself i (encode i))

/-- The first byte of a form declares its length when the payload holds the value. -/
theorem taglen_encBytes {L : Nat} {v : Value} (hL : L = 1 ∨ L = 2 ∨ L = 4 ∨ L = 8)
    (hv : v.toNat < 2 ^ (6 + 8 * (L - 1))) : taglen (encByte L (v.setWidth 64) 0) = L := by
  have hz : (v.setWidth 64).toNat = v.toNat := by
    rw [BitVec.toNat_setWidth]; exact Nat.mod_eq_of_lt (by have := v.isLt; omega)
  rw [taglen_eq, encByte_zero_toNat hL (by rw [hz]; exact hv), hz]
  have hq : v.toNat / 256 ^ (L - 1) < 64 := by
    apply Nat.div_lt_of_lt_mul
    have e : (256 : Nat) ^ (L - 1) = 2 ^ (8 * (L - 1)) := by rw [pow_mul]; norm_num
    rw [e, mul_comm, show (64 : Nat) = 2 ^ 6 from rfl, ← pow_add]; exact hv
  have hd : (64 * codeOf L + v.toNat / 256 ^ (L - 1)) / 64 = codeOf L := by
    rw [Nat.mul_add_div (by norm_num), Nat.div_eq_of_lt hq, Nat.add_zero]
  rw [hd]
  rcases hL with rfl | rfl | rfl | rfl <;> rfl

theorem len : Statement .len := ⟨rfl, fun _ => .inl rfl⟩
theorem append : Statement .append := ⟨rfl, fun _ => .inl rfl⟩
theorem parse : Statement .parse := ⟨rfl, fun _ => .inl rfl⟩
theorem peek : Statement .peek := ⟨rfl, fun _ => .inl rfl⟩
theorem read : Statement .read := ⟨rfl, fun _ => .inl rfl⟩
theorem write : Statement .write := ⟨rfl, fun _ => .inl rfl⟩
theorem taglen : Statement .taglen := ⟨rfl, fun _ => .inl rfl⟩
theorem reservedOp7 : Statement .reservedOp7 := ⟨rfl, fun _ => .inr rfl⟩

theorem vi1 (v : Value) : Statement (.vi1 v) :=
  ⟨rfl, fun h => taglen_encBytes (.inl rfl) (of_decide_eq_true h)⟩

theorem vi2 (v : Value) : Statement (.vi2 v) :=
  ⟨rfl, fun h => taglen_encBytes (.inr (.inl rfl)) (of_decide_eq_true h)⟩

theorem vi4 (v : Value) : Statement (.vi4 v) :=
  ⟨rfl, fun h => taglen_encBytes (.inr (.inr (.inl rfl))) (of_decide_eq_true h)⟩

theorem vi8 (v : Value) : Statement (.vi8 v) :=
  ⟨rfl, fun h => taglen_encBytes (.inr (.inr (.inr rfl))) (of_decide_eq_true h)⟩

end Sys2Proof.Laws.SlotWidth
end

