-- ==== Sys2Proof/Laws/Step.lean ====
section
/-! SUPPORT. One step: for each instruction, each move and the step itself, once, all that it can do when
it answers a next state. -/

namespace Sys2Proof.Machine

/-- All that an instruction can do when it answers a next state. -/
theorem exec_next {i : Instr} {s t : State} (h : exec i s = .next t) :
    match i with
    | .len => s.enc.phase = .idle ∧
        ((∃ L, lenOf s.vPort = some L ∧ t = s.deliver (.enc .ok (some (lenPort L)))) ∨
          lenOf s.vPort = none ∧ t = s.deliver (.enc .outOfRange none))
    | .append => s.enc.phase = .idle ∧
        ((∃ L, lenOf s.vPort = some L ∧ s.dst.hasRoom L = true ∧
            t = (s.withDst { s.dst with space := s.dst.space.append (encOf s.vPort) }).deliver
              (.enc .ok none)) ∨
          lenOf s.vPort = none ∧ t = s.deliver (.enc .outOfRange none))
    | .parse => s.dec.reading = false ∧
        ((∃ v L, decOf s.sliceBytes = .ok (v, L) ∧
            t = s.deliver (.dec .ok (some v) (some (lenPort L)))) ∨
          ∃ m, decOf s.sliceBytes = .error m ∧ t = s.deliver (.dec (missingStatus m) none none))
    | .peek => s.dec.reading = false ∧
        ((∃ v L, decOf s.sliceBytes = .ok (v, L) ∧ t = s.deliver (.dec .ok (some v) none)) ∨
          ∃ m, decOf s.sliceBytes = .error m ∧ t = s.deliver (.dec (missingStatus m) none none))
    | .read => s.dec.reading = false ∧ t = readRun s.src.answers s.startRead
    | .write => s.enc.phase = .idle ∧
        ((∃ L, lenOf s.vPort = some L ∧ t = writeRun s.snk.beats (s.startWrite L)) ∨
          lenOf s.vPort = none ∧ t = s.deliver (.enc .outOfRange none))
    | .taglen => t = s.deliver (.lte (tagOf s.b0Port) (lenPort (taglen s.b0Port)))
    | .reservedOp7 => False
    | .vi1 v => s.dec.reading = false ∧ t = s.deliver (.dec .ok (some v) (some 1))
    | .vi2 v => s.dec.reading = false ∧ t = s.deliver (.dec .ok (some v) (some 2))
    | .vi4 v => s.dec.reading = false ∧ t = s.deliver (.dec .ok (some v) (some 4))
    | .vi8 v => s.dec.reading = false ∧ t = s.deliver (.dec .ok (some v) (some 8)) := by
  cases i with
  | len =>
    simp only [exec, execLen] at h
    obtain ⟨hp, h⟩ := State.atEnc_next h
    refine ⟨hp, ?_⟩
    cases hl : lenOf s.vPort with
    | none => simp only [hl, Host.Outcome.next.injEq] at h; exact .inr ⟨rfl, h.symm⟩
    | some L => simp only [hl, Host.Outcome.next.injEq] at h; exact .inl ⟨L, rfl, h.symm⟩
  | append =>
    simp only [exec, execAppend] at h
    obtain ⟨hp, h⟩ := State.atEnc_next h
    refine ⟨hp, ?_⟩
    cases hl : lenOf s.vPort with
    | none => simp only [hl, Host.Outcome.next.injEq] at h; exact .inr ⟨rfl, h.symm⟩
    | some L =>
      simp only [hl] at h
      split at h
      · next hr => simp only [Host.Outcome.next.injEq] at h; exact .inl ⟨L, rfl, hr, h.symm⟩
      · cases h
  | parse =>
    simp only [exec, execParse] at h
    obtain ⟨hp, h⟩ := State.atDec_next h
    refine ⟨hp, ?_⟩
    rcases s.decodeSlice_cases Delivery.okParse with ⟨v, L, hd, he⟩ | ⟨m, hd, he⟩ <;>
      rw [he, Host.Outcome.next.injEq] at h
    · exact .inl ⟨v, L, hd, h.symm⟩
    · exact .inr ⟨m, hd, h.symm⟩
  | peek =>
    simp only [exec, execPeek] at h
    obtain ⟨hp, h⟩ := State.atDec_next h
    refine ⟨hp, ?_⟩
    rcases s.decodeSlice_cases (fun v _ => Delivery.okValue v) with ⟨v, L, hd, he⟩ | ⟨m, hd, he⟩ <;>
      rw [he, Host.Outcome.next.injEq] at h
    · exact .inl ⟨v, L, hd, h.symm⟩
    · exact .inr ⟨m, hd, h.symm⟩
  | read =>
    simp only [exec, execRead] at h
    obtain ⟨hp, h⟩ := State.atDec_next h
    exact ⟨hp, by rw [Host.Outcome.next.injEq] at h; exact h.symm⟩
  | write =>
    simp only [exec, execWrite] at h
    obtain ⟨hp, h⟩ := State.atEnc_next h
    refine ⟨hp, ?_⟩
    cases hl : lenOf s.vPort with
    | none => simp only [hl, Host.Outcome.next.injEq] at h; exact .inr ⟨rfl, h.symm⟩
    | some L => simp only [hl, Host.Outcome.next.injEq] at h; exact .inl ⟨L, rfl, h.symm⟩
  | taglen => simp only [exec, execTaglen, Host.Outcome.next.injEq] at h; exact h.symm
  | reservedOp7 => cases h
  | vi1 v => exact State.takeForm_next h
  | vi2 v => exact State.takeForm_next h
  | vi4 v => exact State.takeForm_next h
  | vi8 v => exact State.takeForm_next h

/-- All that a move of the host or the environment can do when it answers a next state. -/
theorem take_next {s t : State} {e : Event} (h : s.take e = .next t) :
    match e with
    | .present slot =>
        (∃ i, decode slot = .ok i ∧ exec i s = .next t) ∨
        (∃ m, decode slot = .error (.missing m) ∧ s.dec.reading = false ∧
          t = s.deliver (.dec (missingStatus m) none none))
    | .driveV v => t = s.withVPort v
    | .driveB0 b => t = s.withB0Port b
    | .giveSlice bs => t = s.withSlice .own (Space.ofBytes bs)
    | .giveDstAsSlice => t = s.withSlice .dst Space.empty
    | .setCursor c => t = s.withCursor c
    | .giveDst bs cap => t = s.withDst { space := Space.ofBytes bs, cap := cap }
    | .giveSrc as => s.dec.reading = false ∧ t = s.withSrc { answers := as, pulls := 0, taken := 0 }
    | .srcAnswer a => t = readRun (s.src.answers ++ [a]) s
    | .giveSnk bs => s.enc.phase = .idle ∧ t = s.withSnk { beats := bs, offered := [], contents := [] }
    | .snkAnswer b => t = writeRun (s.snk.beats ++ [b]) s
    | .reset keeps => t = s.resetBlock keeps
    | .resetInAppend => s.enc.phase = .idle ∧
        (lenOf s.vPort = none ∧ t = s.resetUnits ∨
          ∃ L, lenOf s.vPort = some L ∧ s.dst.hasRoom L = true ∧
            t = (s.withDst { s.dst with space := Space.ofBytes s.struckBytes }).resetUnits) := by
  cases e with
  | present slot =>
    simp only [State.take] at h
    cases hd : decode slot with
    | ok i => rw [hd] at h; exact .inl ⟨i, hd, h⟩
    | error r =>
      rw [hd] at h
      cases r with
      | notOwned => cases h
      | missing m =>
        simp only [rejectSlot] at h
        obtain ⟨hp, h⟩ := State.atDec_next h
        rw [Host.Outcome.next.injEq] at h
        exact .inr ⟨m, hd, hp, h.symm⟩
  | giveSrc as =>
    simp only [State.take, State.giveSrc, State.decBusy] at h
    cases hr : s.dec.reading with
    | true => simp [hr] at h
    | false => simp only [hr, Bool.false_eq_true, if_false, Host.Outcome.next.injEq] at h; exact ⟨rfl, h.symm⟩
  | giveSnk bs =>
    simp only [State.take, State.giveSnk, State.encBusy] at h
    cases hr : s.enc.phase with
    | pushing => simp [hr] at h
    | idle =>
      simp only [hr] at h
      rw [if_neg (by decide), Host.Outcome.next.injEq] at h; exact ⟨rfl, h.symm⟩
  | resetInAppend =>
    simp only [State.take, State.resetInAppend] at h
    obtain ⟨hp, h⟩ := State.atEnc_next h
    refine ⟨hp, ?_⟩
    cases hl : lenOf s.vPort with
    | none => simp only [hl, Host.Outcome.next.injEq] at h; exact .inl ⟨rfl, h.symm⟩
    | some L =>
      simp only [hl] at h
      split at h
      · next hr => rw [Host.Outcome.next.injEq] at h; exact .inr ⟨L, rfl, hr, h.symm⟩
      · cases h
  | driveV v => cases h; rfl
  | driveB0 b => cases h; rfl
  | giveSlice bs => cases h; rfl
  | giveDstAsSlice => cases h; rfl
  | setCursor c => cases h; rfl
  | giveDst bs cap => cases h; rfl
  | srcAnswer a => cases h; rfl
  | snkAnswer b => cases h; rfl
  | reset keeps => cases h; rfl

/-- All that a step can do when it answers a next state: nothing, with no move to come, or the first
move. -/
theorem step_next {s t : State} (h : step s = .next t) :
    (s.inbox = [] ∧ t = s) ∨
    ∃ e es, s.inbox = e :: es ∧ (s.withInbox es).take e = .next t := by
  cases hi : s.inbox with
  | nil => rw [step, hi, Host.Outcome.next.injEq] at h; exact .inl ⟨rfl, h.symm⟩
  | cons e es => rw [step, hi] at h; exact .inr ⟨e, es, rfl, h⟩

end Sys2Proof.Machine
end

