-- ==== Sys2Proof/Tests/Slice0.lean ====
section
/-! SUPPORT. Tests: expected results from the spec's own tables and examples (95_test_vectors.md and the
worked examples of the rules), and for each obligation with hypotheses a concrete state that meets
them. -/

namespace Sys2Proof.Tests

open Sys2Proof.Machine

/-! ### Small states -/

/-- Idle, with a value on the encoder's port. -/
def holding (v : VIn) : State := State.reset.withVPort v

/-- Idle, with a value on the port and a destination buffer. -/
def buffered (v : VIn) (bs : List Byte) (cap : Option Nat) : State :=
  (holding v).withDst { space := Space.ofBytes bs, cap := cap }

/-- Idle, with a slice. -/
def slicing (bs : List Byte) : State := State.reset.withSlice .own (Space.ofBytes bs)

/-- Idle, with a source that has answers ready. -/
def sourcing (as : List PullAnswer) : State :=
  State.reset.withSrc { answers := as, pulls := 0, taken := 0 }

/-- Idle, with a value on the port and a sink that will do so much. -/
def sinking (v : VIn) (bs : List SinkBeat) : State :=
  (holding v).withSnk { beats := bs, offered := [], contents := [] }

/-- A sink that takes the byte. -/
def takes : SinkBeat := { answer := .ok, keeps := true }

/-- A sink that fails and drops the byte. -/
def drops (e : Nat) : SinkBeat := { answer := .fail ⟨e⟩, keeps := false }

/-- Both units in flight: a `READ` that has byte `7B` and waits, a `WRITE` of 300 that waits. -/
def inFlight : State :=
  readRun [.byte 0x7B] (writeRun [takes] ((holding 300).startWrite 2)).startRead

/-- An extractor with a byte on its port. -/
def showing (b : Byte) : State := State.reset.withB0Port b

/-- The state after, if there is one. -/
def after (r : Result) : State :=
  match r with
  | .next t => t
  | .fault _ => State.reset
  | .refused _ => State.reset

/-! ### Well-formedness -/

theorem test_wf_refuses_vi1_of_64 : (Instr.vi1 64).wf = false := by decide
theorem test_wf_refuses_vi2_of_16384 : (Instr.vi2 16384).wf = false := by decide
theorem test_wf_refuses_vi4_of_1073741824 : (Instr.vi4 1073741824).wf = false := by decide
theorem test_wf_accepts_largest_values :
    (Instr.vi1 63).wf = true ∧ (Instr.vi2 16383).wf = true ∧ (Instr.vi4 1073741823).wf = true ∧
    (Instr.vi8 4611686018427387903).wf = true := by decide

/-! ### Decoding, from words written out bit by bit (R50, R60; values of 95_test_vectors.md) -/

theorem test_decode_len : decodeTableWord 8 0b000 = some .len := by decide
theorem test_decode_append : decodeTableWord 8 0b001 = some .append := by decide
theorem test_decode_parse : decodeTableWord 8 0b010 = some .parse := by decide
theorem test_decode_peek : decodeTableWord 8 0b011 = some .peek := by decide
theorem test_decode_read : decodeTableWord 8 0b100 = some .read := by decide
theorem test_decode_write : decodeTableWord 8 0b101 = some .write := by decide
theorem test_decode_taglen : decodeTableWord 8 0b110 = some .taglen := by decide
theorem test_decode_reservedOp7 : decodeTableWord 8 0b111 = some .reservedOp7 := by decide
theorem test_decode_vi1 : decodeTableWord 8 0b00100101 = some (.vi1 37) := by decide
theorem test_decode_vi2 : decodeTableWord 16 0b0111101110111101 = some (.vi2 15293) := by decide
theorem test_decode_vi4 :
    decodeTableWord 32 0b10011101011111110011111001111101 = some (.vi4 494878333) := by decide
theorem test_decode_vi8 :
    decodeTableWord 64 0b1100001000011001011111000101111011111111000101001110100010001100 =
      some (.vi8 151288809941952652) := by decide

/-- A code at a unit that does not own it, an empty encoding and a cut one hold no instruction. -/
theorem test_decode_rejects :
    decode (.command .enc 2) = .error .notOwned ∧
    decode (.encoding []) = .error (.missing .noBytes) ∧
    decode (.encoding [0xC0]) = .error (.missing .shortBytes) := by
  refine ⟨rfl, rfl, rfl⟩

/-- The worked examples of R81. -/
theorem test_encode_bytes :
    encOf 63 = [0x3F] ∧ encOf 300 = [0x41, 0x2C] ∧ encOf 16384 = [0x80, 0x00, 0x40, 0x00] ∧
    encOf 4611686018427387903 = List.replicate 8 0xFF := by decide

/-! ### Instructions, one step each -/

/-- S4. -/
theorem test_len_of_16384 :
    exec .len (holding 16384) = .next ((holding 16384).deliver (.enc .ok (some 4))) := rfl
/-- S9. -/
theorem test_len_of_two_pow_62 :
    (after (exec .len (holding 4611686018427387904))).delivered = [.enc .outOfRange none] := by decide

/-- The worked example of R80. -/
theorem test_append_16384 :
    (after (exec .append (buffered 16384 [0xAA] none))).dst.space.bytes =
      [0xAA, 0x80, 0x00, 0x40, 0x00] := by decide
/-- Program P5, step 1. -/
theorem test_append_out_of_range :
    (after (exec .append (buffered 4611686018427387904 [0x01] none))).dst.space.bytes = [0x01] := by decide

/-- Program P4, step 4: a non-canonical encoding. -/
theorem test_parse_noncanonical :
    (after (exec .parse (slicing [0x40, 0x25, 0xFF]))).delivered = [.dec .ok (some 37) (some 2)] := by
  decide
/-- The worked example of R102. -/
theorem test_parse_truncated :
    (after (exec .parse (slicing [0x80, 0x00, 0x40]))).delivered = [.dec .truncated none none] := by decide

/-- The worked example of R105. -/
theorem test_peek_four_bytes :
    (after (exec .peek (slicing [0x9D, 0x7F, 0x3E, 0x7D]))).delivered =
      [.dec .ok (some 494878333) none] := by decide
/-- R101, R105. -/
theorem test_peek_empty :
    (after (exec .peek (slicing []))).delivered = [.dec .endOfStream none none] := by decide

/-- The worked example of R110: the source still holds `25`. -/
theorem test_read_leaves_rest :
    (after (exec .read (sourcing [.byte 0x7B, .byte 0xBD, .byte 0x25, .exhausted]))).delivered =
      [.dec .ok (some 15293) none] ∧
    (after (exec .read (sourcing [.byte 0x7B, .byte 0xBD, .byte 0x25, .exhausted]))).src =
      { answers := [.byte 0x25, .exhausted], pulls := 2, taken := 2 } := by decide
/-- The worked example of R112: two pulls, one byte. -/
theorem test_read_truncated :
    (after (exec .read (sourcing [.byte 0xC0, .exhausted]))).delivered = [.dec .truncated none none] ∧
    (after (exec .read (sourcing [.byte 0xC0, .exhausted]))).src =
      { answers := [], pulls := 2, taken := 1 } := by decide

/-- The worked example of R125. -/
theorem test_write_300 :
    (after (exec .write (sinking 300 [takes, takes]))).snk =
      { beats := [], offered := [0x41, 0x2C], contents := [0x41, 0x2C] } := by decide
/-- The worked example of R127, with a sink that drops the failing byte. -/
theorem test_write_sink_failure :
    (after (exec .write (sinking 16384 [takes, takes, drops 9]))).snk =
      { beats := [], offered := [0x80, 0x00, 0x40], contents := [0x80, 0x00] } ∧
    (after (exec .write (sinking 16384 [takes, takes, drops 9]))).delivered =
      [.enc (.io ⟨9⟩) none] := by decide

/-- The worked example of R90. -/
theorem test_taglen_C0 : (after (exec .taglen (showing 0xC0))).delivered = [.lte 3 8] := by decide
/-- The step at a multiple of 64 (R90). -/
theorem test_taglen_3F : (after (exec .taglen (showing 0x3F))).delivered = [.lte 0 1] := by decide

theorem test_reservedOp7_refused : exec .reservedOp7 State.reset = .refused .reservedOpcode := rfl

theorem test_vi1 : (after (exec (.vi1 37) State.reset)).delivered = [.dec .ok (some 37) (some 1)] := by decide
theorem test_vi2 :
    (after (exec (.vi2 15293) State.reset)).delivered = [.dec .ok (some 15293) (some 2)] := by decide
theorem test_vi4 :
    (after (exec (.vi4 494878333) State.reset)).delivered = [.dec .ok (some 494878333) (some 4)] := by decide
theorem test_vi8 :
    (after (exec (.vi8 151288809941952652) State.reset)).delivered =
      [.dec .ok (some 151288809941952652) (some 8)] := by decide

/-- The first step after reset runs the word placed. -/
theorem test_step_runs_fetch_word :
    (after (step (State.reset.withFetchWord 16 0x4025))).delivered =
      [.dec .ok (some 37) (some 2)] := by decide

/-- Driving the port does not touch a `WRITE` in flight: the second byte of 300 goes out (R46). -/
theorem test_write_in_flight_keeps_value :
    ((inFlight.withVPort 5).snkAnswer takes).snk.contents = [0x41, 0x2C] := by decide

/-- A reset in the middle of a `WRITE` whose second push is unanswered: the sink has the first byte for
certain and the second as it decides (R127, R191). -/
theorem test_reset_in_write :
    (after (step (inFlight.withInbox [.reset true]))).snk.contents = [0x41, 0x2C] ∧
    (after (step (inFlight.withInbox [.reset false]))).snk.contents = [0x41] := by decide

/-- A cursor past the end shows the empty slice (log entry 21). -/
theorem test_cursor_past_end : ((slicing [0x25]).withCursor 2).sliceBytes = [] := by decide

/-! ### Hypotheses that can be met -/

theorem witness_EncodedLengthIsLeast :
    lenOf 16384 = some 4 ∧ 4 ∈ lengths ∧ (16384 : VIn).toNat < 2 ^ payloadBits 4 ∧
    ∀ M ∈ lengths, (16384 : VIn).toNat < 2 ^ payloadBits M → 4 ≤ M := by decide

theorem witness_EncodingBytesByForm :
    (63 : VIn).toNat ≤ 63 ∧
    (63 < (64 : VIn).toNat ∧ (16383 : VIn).toNat ≤ 16383) ∧
    (16383 < (16384 : VIn).toNat ∧ (1073741823 : VIn).toNat ≤ 1073741823) ∧
    (1073741823 < (1073741824 : VIn).toNat ∧
      (4611686018427387903 : VIn).toNat ≤ 4611686018427387903) ∧
    4611686018427387903 < (4611686018427387904 : VIn).toNat := by decide

theorem witness_EncodingIsBigEndianWord :
    lenOf 63 = some 1 ∧ lenOf 16383 = some 2 ∧ lenOf 1073741823 = some 4 ∧
    lenOf 4611686018427387903 = some 8 := by decide

theorem witness_FirstByteTellsEncodedLength : lenOf 64 = some 2 := by decide

theorem witness_DecodeOfEncodingGivesValue :
    lenOf 300 = some 2 ∧ decOf (encOf 300 ++ [0xFF]) = .ok (300, 2) := ⟨rfl, rfl⟩

theorem witness_EveryWideEnoughFormDecodes :
    2 ∈ lengths ∧ ([0x40, 0x25] : List Byte).length = 2 ∧ decOf [0x40, 0x25] = .ok (37, 2) ∧
    (37 : Value).toNat < 2 ^ payloadBits 2 ∧ [0x40, 0x25] = encBytes 2 ((37 : Value).setWidth 64) :=
  ⟨by decide, rfl, rfl, by decide, by decide⟩

theorem witness_EncodingsArePrefixFree : lenOf 300 = some 2 ∧ encOf 300 = encOf 300 ++ [] := by decide

theorem witness_ReencodingIsNoLonger :
    decOf [0x25, 0xFF] = .ok (37, 1) ∧ decOf [0x40, 0x25] = .ok (37, 2) := ⟨rfl, rfl⟩

theorem witness_DecodedValueIsInRange :
    decOf (List.replicate 8 0xFF) = .ok (4611686018427387903, 8) := rfl

theorem witness_DecodeReadsDeclaredBytesOnly : decOf [0x7B, 0xBD, 0x99] = .ok (15293, 2) := rfl

theorem witness_HeldWordNamesEncodingBytes :
    lenOf 4611686018427387903 = some 8 ∧ 7 < 8 ∧ lenOf 63 = some 1 ∧ 0 < 1 := by decide

theorem witness_DecodeOfEncodeIsInstruction :
    (Instr.vi1 63).wf = true ∧ (Instr.vi8 0).wf = true ∧ Instr.len.wf = true := by decide

theorem witness_EncodeOfDecodeIsSlot :
    decode (.encoding [0x40, 0x25, 0xFF]) = .ok (.vi2 37) ∧ decode (.command .dec 4) = .ok .read ∧
    decode (.command .dec 7) = .ok .reservedOp7 := ⟨rfl, rfl, rfl⟩

theorem witness_EncodingSlotDecodesToForm :
    ([] : List Byte).length + 1 = 2 ^ ((0x3F : Byte).toNat / 64) ∧
    ([0x25] : List Byte).length + 1 = 2 ^ ((0x40 : Byte).toNat / 64) ∧
    ([1, 2, 3] : List Byte).length + 1 = 2 ^ ((0xBF : Byte).toNat / 64) ∧
    ([1, 2, 3, 4, 5, 6, 7] : List Byte).length + 1 = 2 ^ ((0xC0 : Byte).toNat / 64) := by decide

theorem witness_StepRunsDecodedInstruction :
    (State.reset.withFetchWord 8 2).inbox = [.present (.command .dec 2)] ∧
    decode (.command .dec 2) = .ok .parse := ⟨rfl, rfl⟩

theorem witness_LenDeliversLengthOrOutOfRange :
    (holding 63).enc.phase = .idle ∧ (holding 63).vPort.toNat ≤ 63 ∧
    63 < (holding 64).vPort.toNat ∧ (holding 16383).vPort.toNat ≤ 16383 ∧
    16383 < (holding 16384).vPort.toNat ∧ (holding 1073741823).vPort.toNat ≤ 1073741823 ∧
    1073741823 < (holding 1073741824).vPort.toNat ∧
    (holding 4611686018427387903).vPort.toNat ≤ 4611686018427387903 ∧
    4611686018427387903 < (holding 4611686018427387904).vPort.toNat := by decide

theorem witness_TaglenDeliversTagAndLength :
    (showing 0x3F).b0Port.toNat < 64 ∧
    64 ≤ (showing 0x40).b0Port.toNat ∧ (showing 0x7F).b0Port.toNat < 128 ∧
    128 ≤ (showing 0x80).b0Port.toNat ∧ (showing 0xBF).b0Port.toNat < 192 ∧
    192 ≤ (showing 0xC0).b0Port.toNat := by decide

/-- A buffer that the encoding fills exactly. -/
theorem witness_AppendWritesCanonicalEncoding :
    (buffered 16384 [0xAA] (some 5)).enc.phase = .idle ∧
    lenOf (buffered 16384 [0xAA] (some 5)).vPort = some 4 ∧
    ∀ c, (buffered 16384 [0xAA] (some 5)).dst.cap = some c →
      (buffered 16384 [0xAA] (some 5)).dst.space.len + 4 ≤ c :=
  ⟨rfl, rfl, fun _ h => by cases h; decide⟩

theorem witness_AppendOutOfRangeTouchesNothing :
    (buffered 4611686018427387904 [0x01] (some 1)).enc.phase = .idle ∧
    4611686018427387903 < (buffered 4611686018427387904 [0x01] (some 1)).vPort.toNat := by decide

/-- A buffer that lacks one byte of room. -/
theorem witness_AppendBeyondCapacityIsRefused :
    (buffered 16384 [0xAA] (some 4)).enc.phase = .idle ∧
    lenOf (buffered 16384 [0xAA] (some 4)).vPort = some 4 ∧
    (buffered 16384 [0xAA] (some 4)).dst.cap = some 4 ∧
    4 < (buffered 16384 [0xAA] (some 4)).dst.space.len + 4 := by decide

theorem witness_ParseDeliversValueAndConsumed :
    (slicing [0x7B, 0xBD, 0x99]).dec.reading = false ∧
    (slicing [0x7B, 0xBD, 0x99]).sliceBytes = 0x7B :: ([0xBD] ++ [0x99]) ∧
    ([0xBD] : List Byte).length + 1 = 2 ^ ((0x7B : Byte).toNat / 64) := by decide

theorem witness_ParseOfMissingBytesFails :
    (slicing []).dec.reading = false ∧ (slicing []).sliceBytes = [] ∧
    (slicing [0x40]).sliceBytes = [0x40] ∧
    ([] : List Byte).length + 1 < 2 ^ ((0x40 : Byte).toNat / 64) ∧
    (slicing [0x80, 0, 0x40]).sliceBytes = 0x80 :: [0, 0x40] ∧
    ([0, 0x40] : List Byte).length + 1 < 2 ^ ((0x80 : Byte).toNat / 64) := by decide

theorem witness_PeekIsParseWithoutCount : (slicing [0x40, 0x25]).dec.reading = false := rfl

theorem witness_PeekDeliversValue :
    (slicing [0x40, 0x25, 0xFF]).dec.reading = false ∧
    (slicing [0x40, 0x25, 0xFF]).sliceBytes = 0x40 :: ([0x25] ++ [0xFF]) ∧
    ([0x25] : List Byte).length + 1 = 2 ^ ((0x40 : Byte).toNat / 64) ∧
    (slicing []).sliceBytes = [] ∧ (slicing [0xC0]).sliceBytes = [0xC0] ∧
    ([] : List Byte).length + 1 < 2 ^ ((0xC0 : Byte).toNat / 64) := by decide

theorem witness_PeekTwiceGivesTheSame : (slicing [0x40, 0x25]).dec.reading = false := rfl

theorem witness_ParseOfCutEncodingFails :
    lenOf 16384 = some 4 ∧ (slicing []).dec.reading = false ∧
    (slicing []).sliceBytes = (encOf 16384).take 0 ∧
    (slicing [0x80]).sliceBytes = (encOf 16384).take 1 ∧
    (slicing [0x80, 0x00, 0x40]).sliceBytes = (encOf 16384).take 3 := by decide

theorem witness_ParseReadsBackAppend :
    (buffered 16384 [0xAA] (some 5)).enc.phase = .idle ∧
    (buffered 16384 [0xAA] (some 5)).dec.reading = false ∧
    lenOf (buffered 16384 [0xAA] (some 5)).vPort = some 4 ∧
    (buffered 16384 [0xAA] (some 5)).dst.hasRoom 4 = true := by decide

theorem witness_WireFormsDeliverTheirValue : State.reset.dec.reading = false := rfl

theorem witness_PresentedCutEncodingFails :
    State.reset.dec.reading = false ∧ ([] : List Byte).length + 1 < 2 ^ ((0x40 : Byte).toNat / 64) ∧
    ([1, 2, 3, 4, 5, 6] : List Byte).length + 1 < 2 ^ ((0xFF : Byte).toNat / 64) ∧
    inFlight.dec.reading = true := by decide

theorem witness_ReadDeliversValue :
    (sourcing [.byte 0x7B, .byte 0xBD, .exhausted]).dec.reading = false ∧
    (sourcing [.byte 0x7B, .byte 0xBD, .exhausted]).src.answers =
      (0x7B :: [0xBD]).map .byte ++ [.exhausted] ∧
    ([0xBD] : List Byte).length + 1 = 2 ^ ((0x7B : Byte).toNat / 64) := by decide

theorem witness_ReadOfExhaustedSourceIsEndOfStream :
    (sourcing [.exhausted, .byte 5]).dec.reading = false ∧
    (sourcing [.exhausted, .byte 5]).src.answers = .exhausted :: [.byte 5] := by decide

/-- Cut after the first byte, and before the last. -/
theorem witness_ReadCutInsideValueIsTruncated :
    (sourcing [.byte 0xC0, .exhausted]).dec.reading = false ∧
    (sourcing [.byte 0xC0, .exhausted]).src.answers = (0xC0 :: []).map .byte ++ [.exhausted] ∧
    ([] : List Byte).length + 1 < 2 ^ ((0xC0 : Byte).toNat / 64) ∧
    (sourcing [.byte 0x80, .byte 1, .byte 2, .exhausted]).src.answers =
      (0x80 :: [1, 2]).map .byte ++ [.exhausted] ∧
    ([1, 2] : List Byte).length + 1 < 2 ^ ((0x80 : Byte).toNat / 64) := by decide

/-- A failure at the first pull, and at a later one. -/
theorem witness_ReadPassesSourceFailureOn :
    (sourcing [.fail ⟨7⟩]).dec.reading = false ∧
    (sourcing [.fail ⟨7⟩]).src.answers = ([] : List Byte).map .byte ++ [.fail ⟨7⟩] ∧
    (∀ b0 body, ([] : List Byte) = b0 :: body → ([] : List Byte).length < 2 ^ (b0.toNat / 64)) ∧
    (sourcing [.byte 0x40, .fail ⟨7⟩]).src.answers = [0x40].map .byte ++ [.fail ⟨7⟩] ∧
    ∀ b0 body, ([0x40] : List Byte) = b0 :: body → ([0x40] : List Byte).length < 2 ^ (b0.toNat / 64) :=
  ⟨rfl, rfl, fun _ _ h => (by cases h), rfl, fun _ _ h => (by cases h; decide)⟩

theorem witness_ReadWithoutAnswerWaits :
    State.reset.dec.reading = false ∧ State.reset.src.answers = [] ∧ State.reset.inbox = [] := by decide

/-- With a result, and without one yet. -/
theorem witness_ReadMachineAgreesWithFunction :
    (sourcing [.byte 0x25]).dec.reading = false ∧ (readOf (sourcing [.byte 0x25]).src.answers).isSome ∧
    (readOf (sourcing [.byte 0x40]).src.answers).isNone := by decide

theorem witness_LateAnswerCountsAsReady :
    (sourcing [.byte 0x40]).dec.reading = false ∧
    exec .read (sourcing [.byte 0x40]) = .next (after (exec .read (sourcing [.byte 0x40]))) ∧
    (after (exec .read (sourcing [.byte 0x40]))).dec.reading = true ∧
    (sinking 300 [takes]).enc.phase = .idle ∧
    exec .write (sinking 300 [takes]) = .next (after (exec .write (sinking 300 [takes]))) ∧
    (after (exec .write (sinking 300 [takes]))).enc.phase = .pushing :=
  ⟨rfl, rfl, rfl, rfl, rfl, rfl⟩

theorem witness_ReadOfEncodingGivesValue : lenOf 300 = some 2 := by decide

theorem witness_RepeatedReadGivesBackEveryValue :
    (sourcing [.byte 0x00, .byte 0x40, .byte 0x40, .exhausted]).dec.reading = false ∧
    (sourcing [.byte 0x00, .byte 0x40, .byte 0x40, .exhausted]).src.answers =
      (([0, 64] : List Value).flatMap fun w => encOf (w.setWidth 64)).map .byte ++ [.exhausted] := by decide

theorem witness_WritePushesCanonicalEncoding :
    (sinking 300 [takes, takes, drops 1]).enc.phase = .idle ∧
    lenOf (sinking 300 [takes, takes, drops 1]).vPort = some 2 ∧ [takes, takes].length = 2 ∧
    (∀ b ∈ [takes, takes], b.answer = .ok) ∧
    (sinking 300 [takes, takes, drops 1]).snk.beats = [takes, takes] ++ [drops 1] := by decide

theorem witness_WriteOutOfRangePushesNothing :
    (sinking 4611686018427387904 [drops 1]).enc.phase = .idle ∧
    4611686018427387903 < (sinking 4611686018427387904 [drops 1]).vPort.toNat := by decide

/-- A failure at the first push, and at the last. -/
theorem witness_WriteStopsAtSinkFailure :
    (sinking 300 [drops 1]).enc.phase = .idle ∧ lenOf (sinking 300 [drops 1]).vPort = some 2 ∧
    (sinking 300 [drops 1]).snk.beats = [] ++ ⟨.fail ⟨1⟩, false⟩ :: [] ∧
    [takes].length < 2 ∧ (∀ b ∈ [takes], b.answer = .ok) ∧
    (sinking 300 [takes, drops 1]).snk.beats = [takes] ++ ⟨.fail ⟨1⟩, false⟩ :: [] := by decide

theorem witness_WriteMachineAgreesWithFunction :
    (sinking 300 [takes, takes]).enc.phase = .idle ∧
    (writeOf 300 [takes, takes]).isSome ∧ (writeOf 300 [takes]).isNone := by decide

theorem witness_WriteInFlightHasSampledItsValue : inFlight.enc.phase = .pushing := by decide

theorem witness_ResultsAreThoseOfTheInstruction :
    Instr.len.wf = true ∧ exec .len (holding 64) = .next ((holding 64).deliver (.enc .ok (some 2))) ∧
    exec .read State.reset = .next (after (exec .read State.reset)) ∧
    exec .write (holding 5) = .next (after (exec .write (holding 5))) ∧
    (Instr.vi1 63).wf = true ∧
    exec (.vi1 63) State.reset = .next (State.reset.deliver (.dec .ok (some 63) (some 1))) ∧
    (inFlight.srcAnswer (.byte 0xBD)).delivered ≠ inFlight.delivered ∧
    (inFlight.snkAnswer takes).delivered ≠ inFlight.delivered :=
  ⟨rfl, rfl, rfl, rfl, rfl, rfl, by decide, by decide⟩

theorem witness_InstructionChangesOnlyItsOwn :
    exec .taglen (showing 0x40) = .next ((showing 0x40).deliver (.lte 1 2)) ∧
    exec .append (buffered 5 [] none) = .next (after (exec .append (buffered 5 [] none))) ∧
    exec .peek (slicing []) = .next ((slicing []).deliver (.dec .endOfStream none none)) ∧
    exec .read (sourcing [.byte 5]) = .next (after (exec .read (sourcing [.byte 5]))) ∧
    exec .write (sinking 5 [takes]) = .next (after (exec .write (sinking 5 [takes]))) ∧
    exec (.vi8 0) State.reset = .next (State.reset.deliver (.dec .ok (some 0) (some 8))) :=
  ⟨rfl, rfl, rfl, rfl, rfl, rfl⟩

/-- Each clause has instructions: `WRITE` does without the decoder, `PARSE` without the encoder, its value
port, the byte port and, the slice being one of its own, the buffer; `LEN` without the slice. -/
theorem witness_InstructionDependsOnlyOnItsOwn :
    Instr.write.unit ≠ some .dec ∧ Instr.parse.unit ≠ some .enc ∧ Instr.parse ≠ .taglen ∧
    Instr.len ≠ .parse ∧ Instr.len ≠ .peek ∧ Instr.parse ≠ .append ∧
    (slicing [0x25]).sliceHandle = .own ∧ Instr.parse ≠ .read ∧ Instr.parse ≠ .write := by decide

/-- Both cases of each handing over that has two: the slice port on the buffer and not, the source and the
sink in use and not. -/
theorem witness_HostHandsOverOperands :
    (State.reset.withSlice .dst Space.empty).sliceHandle = .dst ∧ State.reset.sliceHandle ≠ .dst ∧
    inFlight.dec.reading = true ∧ State.reset.dec.reading ≠ true ∧
    inFlight.enc.phase = .pushing ∧ State.reset.enc.phase ≠ .pushing := by decide

theorem witness_BusyUnitRefusesCommands :
    inFlight.enc.phase = .pushing ∧ Instr.append.unit = some .enc ∧
    inFlight.dec.reading = true ∧ Instr.peek.unit = some .dec := by decide

theorem witness_ReservedAndMisdirectedCodesAreRefused :
    (State.reset.withInbox [.present (.command .enc 2)]).inbox = [.present (.command .enc 2)] ∧
    (decodeOp 2).unit = some .dec ∧ CodecUnit.dec ≠ CodecUnit.enc := by decide

/-- Both units in flight, the source's answer to come. -/
theorem witness_StepKeepsInvariant :
    (inFlight.withInbox [.srcAnswer (.byte 0xBD)]).Inv ∧
    step (inFlight.withInbox [.srcAnswer (.byte 0xBD)]) =
      .next (after (step (inFlight.withInbox [.srcAnswer (.byte 0xBD)]))) := by
  refine ⟨⟨?_, fun _ => ⟨by decide, by decide, by decide, 300, by decide, by decide⟩, by decide, by decide,
    by decide, by decide⟩, rfl⟩
  exact ⟨by decide, by decide, by decide⟩

/-- Two states that differ in a dead register. -/
theorem witness_DeadRegistersAreUnobservable :
    (State.reset.withDec { State.reset.dec with acc := 5 }).live = State.reset.live ∧
    State.reset.withDec { State.reset.dec with acc := 5 } ≠ State.reset := by decide

theorem witness_UnitIsIdleAfterResult :
    exec .read (sourcing [.exhausted]) = .next (after (exec .read (sourcing [.exhausted]))) ∧
    (after (exec .read (sourcing [.exhausted]))).delivered ≠ (sourcing [.exhausted]).delivered ∧
    Instr.read.unit = some .dec ∧
    exec .len (holding 64) = .next ((holding 64).deliver (.enc .ok (some 2))) ∧
    Instr.len.unit = some .enc ∧
    exec .taglen inFlight = .next (inFlight.deliver (.lte 0 1)) ∧ Instr.taglen.unit = some .lte ∧
    (inFlight.srcAnswer .exhausted).delivered ≠ inFlight.delivered ∧
    (inFlight.snkAnswer (drops 3)).delivered ≠ inFlight.delivered :=
  ⟨rfl, by decide, rfl, rfl, rfl, rfl, rfl, by decide, by decide⟩

/-- With operations in flight, and with none. -/
theorem witness_ResetAbandonsOperationsInFlight :
    (inFlight.withInbox [.reset true]).inbox = [.reset true] ∧ inFlight.dec.reading = true ∧
    ((holding 5).withInbox [.reset true]).inbox = [.reset true] ∧ ((holding 5).withInbox [.reset true]).idle :=
  ⟨rfl, rfl, rfl, rfl, rfl, rfl⟩

/-- In the domain with room, and above the domain, where the buffer stays and its first byte with it. -/
theorem witness_ResetInAppendLeavesOldBytes :
    (buffered 300 [0xAA] (some 3)).enc.phase = .idle ∧
    (buffered 300 [0xAA] (some 3)).accepts .append = true ∧
    (buffered 4611686018427387904 [0xAA] (some 1)).accepts .append = true ∧
    lenOf (buffered 4611686018427387904 [0xAA] (some 1)).vPort = none ∧
    0 < (buffered 4611686018427387904 [0xAA] (some 1)).dst.space.len := by decide

end Sys2Proof.Tests
end

section
/-! What an instruction depends on (R5, R30, R42): the places of the state that another value can be put
in, which of them an instruction does without, and that running it and putting commute. -/

namespace Sys2Proof.Machine

/-! ### Places of the state -/

/-- A place of the state, with a value to put in it: the units' registers, the ports, the slice with
the cursor, the buffer, the source and the sink. -/
inductive Place where
  | dec (d : DecRegs)
  | enc (e : EncRegs)
  | vPort (v : VIn)
  | b0Port (b : Byte)
  | slice (h : SliceHandle) (sp : Space) (c : Nat)
  | dst (b : Buffer)
  | src (x : Source)
  | snk (x : Sink)

/-- The state with the value in the place. -/
def Place.put : Place → State → State
  | .dec d, s => s.withDec d
  | .enc e, s => s.withEnc e
  | .vPort v, s => s.withVPort v
  | .b0Port b, s => s.withB0Port b
  | .slice h sp c, s => (s.withSlice h sp).withCursor c
  | .dst b, s => s.withDst b
  | .src x, s => s.withSrc x
  | .snk x, s => s.withSnk x

/-- The instruction does without the place, the slice port showing `h`. Only `PARSE` and `PEEK` look at
`h`: they read the buffer when the port shows it (R46). -/
def Place.unusedBy (i : Instr) (h : SliceHandle) : Place → Prop
  | .dec _ => i.unit ≠ some .dec
  | .enc _ => i.unit ≠ some .enc
  | .vPort _ => i.unit ≠ some .enc
  | .b0Port _ => i ≠ .taglen
  | .slice _ _ _ => i ≠ .parse ∧ i ≠ .peek
  | .dst _ => i ≠ .append ∧ (i = .parse ∨ i = .peek → h = .own)
  | .src _ => i ≠ .read
  | .snk _ => i ≠ .write

section Commuting

variable {p : Place} {i : Instr} {h : SliceHandle}

/-! ### What an instruction uses stays as it was -/

theorem Place.put_enc (hp : p.unusedBy i h) (hi : i.unit = some .enc) (s : State) :
    (p.put s).enc = s.enc := by
  cases p with
  | enc e => exact absurd hi hp
  | _ => rfl

theorem Place.put_vPort (hp : p.unusedBy i h) (hi : i.unit = some .enc) (s : State) :
    (p.put s).vPort = s.vPort := by
  cases p with
  | vPort v => exact absurd hi hp
  | _ => rfl

theorem Place.put_dec (hp : p.unusedBy i h) (hi : i.unit = some .dec) (s : State) :
    (p.put s).dec = s.dec := by
  cases p with
  | dec d => exact absurd hi hp
  | _ => rfl

theorem Place.put_b0Port (hp : p.unusedBy .taglen h) (s : State) : (p.put s).b0Port = s.b0Port := by
  cases p with
  | b0Port b => exact absurd rfl hp
  | _ => rfl

theorem Place.put_dst (hp : p.unusedBy .append h) (s : State) : (p.put s).dst = s.dst := by
  cases p with
  | dst b => exact absurd rfl hp.1
  | _ => rfl

theorem Place.put_src (hp : p.unusedBy .read h) (s : State) : (p.put s).src = s.src := by
  cases p with
  | src x => exact absurd rfl hp
  | _ => rfl

theorem Place.put_snk (hp : p.unusedBy .write h) (s : State) : (p.put s).snk = s.snk := by
  cases p with
  | snk x => exact absurd rfl hp
  | _ => rfl

/-- The slice operand of `PARSE` and `PEEK`: the buffer does not enter it while the slice port shows a
space of its own. -/
theorem Place.put_sliceBytes {s : State} (hi : i = .parse ∨ i = .peek)
    (hp : p.unusedBy i s.sliceHandle) : (p.put s).sliceBytes = s.sliceBytes := by
  cases p with
  | slice h sp c => exact absurd hi (not_or.mpr hp)
  | dst b => simp [Place.put, State.sliceBytes, State.sliceSpace, hp.2 hi]
  | _ => rfl

@[simp] theorem Place.put_draws (p : Place) (s : State) : (p.put s).draws = s.draws := by
  cases p <;> rfl

@[simp] theorem Place.put_idleDec (p : Place) (s : State) : (p.put s).idleDec = s.idleDec := by
  simp [State.idleDec]

@[simp] theorem Place.put_idleEnc (p : Place) (s : State) : (p.put s).idleEnc = s.idleEnc := by
  simp [State.idleEnc]

/-! ### What an instruction changes, it changes beside the place -/

@[simp] theorem Place.put_deliver (p : Place) (s : State) (d : Delivery) :
    (p.put s).deliver d = p.put (s.deliver d) := by
  cases p <;> rfl

@[simp] theorem Place.put_draw (p : Place) (s : State) : (p.put s).draw = p.put s.draw := by
  cases p <;> rfl

theorem Place.put_withEnc (hp : p.unusedBy i h) (hi : i.unit = some .enc) (s : State) (e : EncRegs) :
    (p.put s).withEnc e = p.put (s.withEnc e) := by
  cases p with
  | enc e' => exact absurd hi hp
  | _ => rfl

theorem Place.put_withDec (hp : p.unusedBy i h) (hi : i.unit = some .dec) (s : State) (d : DecRegs) :
    (p.put s).withDec d = p.put (s.withDec d) := by
  cases p with
  | dec d' => exact absurd hi hp
  | _ => rfl

theorem Place.put_withDst (hp : p.unusedBy .append h) (s : State) (b : Buffer) :
    (p.put s).withDst b = p.put (s.withDst b) := by
  cases p with
  | dst b' => exact absurd rfl hp.1
  | _ => rfl

theorem Place.put_withSrc (hp : p.unusedBy .read h) (s : State) (x : Source) :
    (p.put s).withSrc x = p.put (s.withSrc x) := by
  cases p with
  | src x' => exact absurd rfl hp
  | _ => rfl

theorem Place.put_withSnk (hp : p.unusedBy .write h) (s : State) (x : Sink) :
    (p.put s).withSnk x = p.put (s.withSnk x) := by
  cases p with
  | snk x' => exact absurd rfl hp
  | _ => rfl

/-! ### Accepting a command -/

theorem Place.put_atEnc {s : State} {f : State → Result} (hp : p.unusedBy i h)
    (hi : i.unit = some .enc) (hf : f (p.put s) = onNext p.put (f s)) :
    (p.put s).atEnc f = onNext p.put (s.atEnc f) := by
  have he : (p.put s).enc = s.enc := Place.put_enc hp hi s
  cases hb : s.enc.phase with
  | idle => rw [State.atEnc_idle hb, State.atEnc_idle (by rw [he, hb]), hf]
  | pushing => rw [State.atEnc_busy hb, State.atEnc_busy (by rw [he, hb])]; rfl

theorem Place.put_atDec {s : State} {f : State → Result} (hp : p.unusedBy i h)
    (hi : i.unit = some .dec) (hf : f (p.put s) = onNext p.put (f s)) :
    (p.put s).atDec f = onNext p.put (s.atDec f) := by
  have hd : (p.put s).dec = s.dec := Place.put_dec hp hi s
  cases hb : s.dec.reading with
  | false => rw [State.atDec_idle hb, State.atDec_idle (by rw [hd, hb]), hf]
  | true => rw [State.atDec_busy hb, State.atDec_busy (by rw [hd, hb])]; rfl

/-! ### Operations without a stream -/

theorem execLen_put (hp : p.unusedBy .len h) (s : State) :
    execLen (p.put s) = onNext p.put (execLen s) := by
  refine Place.put_atEnc hp rfl ?_
  rw [Place.put_vPort hp rfl]
  cases lenOf s.vPort <;> simp [onNext]

theorem execAppend_put (hp : p.unusedBy .append h) (s : State) :
    execAppend (p.put s) = onNext p.put (execAppend s) := by
  refine Place.put_atEnc hp rfl ?_
  rw [Place.put_vPort hp rfl, Place.put_dst hp, Place.put_withDst hp]
  cases lenOf s.vPort with
  | none => simp [onNext]
  | some L => by_cases hr : s.dst.hasRoom L = true <;> simp [hr, onNext]

/-- The slice operand is all that decoding it reads, the result all that it changes. -/
theorem Place.put_decodeSlice {s : State} (hs : (p.put s).sliceBytes = s.sliceBytes)
    (out : Value → Nat → Delivery) :
    (p.put s).decodeSlice out = onNext p.put (s.decodeSlice out) := by
  rw [State.decodeSlice, State.decodeSlice, hs]
  cases decOf s.sliceBytes <;> simp [onNext]

theorem execParse_put {s : State} (hp : p.unusedBy .parse s.sliceHandle) :
    execParse (p.put s) = onNext p.put (execParse s) :=
  Place.put_atDec hp rfl (Place.put_decodeSlice (Place.put_sliceBytes (.inl rfl) hp) _)

theorem execPeek_put {s : State} (hp : p.unusedBy .peek s.sliceHandle) :
    execPeek (p.put s) = onNext p.put (execPeek s) :=
  Place.put_atDec hp rfl (Place.put_decodeSlice (Place.put_sliceBytes (.inr rfl) hp) _)

theorem execTaglen_put (hp : p.unusedBy .taglen h) (s : State) :
    execTaglen (p.put s) = onNext p.put (execTaglen s) := by
  simp [execTaglen, onNext, Place.put_b0Port hp]

theorem Place.put_takeForm (hp : p.unusedBy i h) (hi : i.unit = some .dec) (s : State) (L : Nat)
    (v : Value) : (p.put s).takeForm L v = onNext p.put (s.takeForm L v) :=
  Place.put_atDec hp hi (by simp [onNext])

/-! ### `READ` -/

theorem Place.put_issuePull (hp : p.unusedBy .read h) (s : State) :
    (p.put s).issuePull = p.put s.issuePull := by
  simp [State.issuePull, Place.put_src hp, Place.put_withSrc hp]

theorem Place.put_tookByte (hp : p.unusedBy .read h) (s : State) :
    (p.put s).tookByte = p.put s.tookByte := by
  simp [State.tookByte, Place.put_src hp, Place.put_withSrc hp]

theorem Place.put_startRead (hp : p.unusedBy .read h) (s : State) :
    (p.put s).startRead = p.put s.startRead := by
  simp [State.startRead, Place.put_dec hp rfl, Place.put_withDec hp rfl, Place.put_issuePull hp]

theorem Place.put_endRead (hp : p.unusedBy .read h) (s : State) :
    (p.put s).endRead = p.put s.endRead := by
  simp [State.endRead, Place.put_withDec hp rfl]

theorem Place.put_afterByte (hp : p.unusedBy .read h) (s : State) (acc : BitVec 62) (rem : BitVec 3) :
    (p.put s).afterByte acc rem = p.put (s.afterByte acc rem) := by
  rw [State.afterByte, State.afterByte, Place.put_dec hp rfl]
  by_cases hr : rem = 0
  · rw [if_pos hr, if_pos hr, Place.put_withDec hp rfl, Place.put_tookByte hp, Place.put_endRead hp,
      Place.put_deliver]
  · rw [if_neg hr, if_neg hr, Place.put_withDec hp rfl, Place.put_tookByte hp, Place.put_issuePull hp]

theorem Place.put_readBeat (hp : p.unusedBy .read h) (s : State) (a : PullAnswer) :
    (p.put s).readBeat a = p.put (s.readBeat a) := by
  have hd : (p.put s).dec = s.dec := Place.put_dec hp rfl s
  cases a with
  | byte b => cases hb : s.dec.phase <;> simp [State.readBeat, hd, hb, Place.put_afterByte hp]
  | exhausted => cases hb : s.dec.phase <;> simp [State.readBeat, hd, hb, Place.put_endRead hp]
  | fail e => cases hb : s.dec.phase <;> simp [State.readBeat, hd, hb, Place.put_endRead hp]

theorem readRun_put (hp : p.unusedBy .read h) (as : List PullAnswer) (s : State) :
    readRun as (p.put s) = p.put (readRun as s) := by
  induction as generalizing s with
  | nil => rw [readRun_nil, readRun_nil, Place.put_src hp, Place.put_withSrc hp]
  | cons a as ih =>
    have hd : (p.put s).dec = s.dec := Place.put_dec hp rfl s
    cases hr : s.dec.reading with
    | false =>
      rw [readRun_cons_idle a as hr, readRun_cons_idle a as (by rw [hd, hr]), Place.put_src hp,
        Place.put_withSrc hp]
    | true =>
      rw [readRun_cons_busy a as hr, readRun_cons_busy a as (by rw [hd, hr]), Place.put_readBeat hp, ih]

theorem execRead_put (hp : p.unusedBy .read h) (s : State) :
    execRead (p.put s) = onNext p.put (execRead s) := by
  refine Place.put_atDec hp rfl ?_
  rw [Place.put_src hp, Place.put_startRead hp, readRun_put hp, onNext]

/-! ### `WRITE` -/

theorem Place.put_issuePush (hp : p.unusedBy .write h) (s : State) (n : Nat) :
    (p.put s).issuePush n = p.put (s.issuePush n) := by
  simp [State.issuePush, Place.put_enc hp rfl, Place.put_snk hp, Place.put_withSnk hp]

theorem Place.put_sinkHolds (hp : p.unusedBy .write h) (s : State) (b : Byte) :
    (p.put s).sinkHolds b = p.put (s.sinkHolds b) := by
  simp [State.sinkHolds, Place.put_snk hp, Place.put_withSnk hp]

theorem Place.put_startWrite (hp : p.unusedBy .write h) (s : State) (L : Nat) :
    (p.put s).startWrite L = p.put (s.startWrite L) := by
  simp [State.startWrite, Place.put_vPort hp rfl, Place.put_withEnc hp rfl, Place.put_issuePush hp]

theorem Place.put_sinkMayHold (hp : p.unusedBy .write h) (s : State) (keeps : Bool) :
    (p.put s).sinkMayHold keeps = p.put (s.sinkMayHold keeps) := by
  cases keeps <;> simp [State.sinkMayHold, Place.put_enc hp rfl, Place.put_sinkHolds hp]

theorem Place.put_endWrite (hp : p.unusedBy .write h) (s : State) :
    (p.put s).endWrite = p.put s.endWrite := by
  simp [State.endWrite, Place.put_withEnc hp rfl]

theorem Place.put_writeBeat (hp : p.unusedBy .write h) (s : State) (b : SinkBeat) :
    (p.put s).writeBeat b = p.put (s.writeBeat b) := by
  have he : (p.put s).enc = s.enc := Place.put_enc hp rfl s
  cases ha : b.answer with
  | fail x => simp [State.writeBeat, ha, Place.put_sinkMayHold hp, Place.put_endWrite hp]
  | ok =>
    by_cases hl : s.enc.idx + 1 = s.enc.len.toNat <;>
      simp [State.writeBeat, ha, he, hl, Place.put_sinkHolds hp, Place.put_withEnc hp rfl,
        Place.put_endWrite hp, Place.put_issuePush hp]

theorem writeRun_put (hp : p.unusedBy .write h) (bs : List SinkBeat) (s : State) :
    writeRun bs (p.put s) = p.put (writeRun bs s) := by
  induction bs generalizing s with
  | nil => rw [writeRun_nil, writeRun_nil, Place.put_snk hp, Place.put_withSnk hp]
  | cons b bs ih =>
    have he : (p.put s).enc = s.enc := Place.put_enc hp rfl s
    cases hr : s.enc.phase with
    | idle =>
      rw [writeRun_idle _ hr, writeRun_idle _ (by rw [he, hr]), Place.put_snk hp, Place.put_withSnk hp]
    | pushing =>
      rw [writeRun_cons_busy b bs hr, writeRun_cons_busy b bs (by rw [he, hr]), Place.put_writeBeat hp,
        ih]

theorem execWrite_put (hp : p.unusedBy .write h) (s : State) :
    execWrite (p.put s) = onNext p.put (execWrite s) := by
  refine Place.put_atEnc hp rfl ?_
  rw [Place.put_vPort hp rfl, Place.put_snk hp]
  cases lenOf s.vPort with
  | none => simp [onNext]
  | some L => simp [onNext, Place.put_startWrite hp, writeRun_put hp]

/-! ### Every instruction -/

/-- Running an instruction and putting a value in a place it does without commute. -/
theorem exec_put {s : State} (hp : p.unusedBy i s.sliceHandle) :
    exec i (p.put s) = onNext p.put (exec i s) := by
  cases i with
  | len => exact execLen_put hp s
  | append => exact execAppend_put hp s
  | parse => exact execParse_put hp
  | peek => exact execPeek_put hp
  | read => exact execRead_put hp s
  | write => exact execWrite_put hp s
  | taglen => exact execTaglen_put hp s
  | reservedOp7 => rfl
  | vi1 v => exact Place.put_takeForm hp rfl s 1 v
  | vi2 v => exact Place.put_takeForm hp rfl s 2 v
  | vi4 v => exact Place.put_takeForm hp rfl s 4 v
  | vi8 v => exact Place.put_takeForm hp rfl s 8 v

end Commuting

/-- Settles O48: each clause is `exec_put` at one kind of place. -/
theorem instructionDependsOnlyOnItsOwn : Obligations.InstructionDependsOnlyOnItsOwn := fun _ _ =>
  ⟨fun hu d => exec_put (p := .dec d) hu,
   fun hu e => exec_put (p := .enc e) hu,
   fun hu v => exec_put (p := .vPort v) hu,
   fun hu b => exec_put (p := .b0Port b) hu,
   fun hparse hpeek h sp c => exec_put (p := .slice h sp c) ⟨hparse, hpeek⟩,
   fun happend hown b => exec_put (p := .dst b) ⟨happend, hown⟩,
   fun hu x => exec_put (p := .src x) hu,
   fun hu x => exec_put (p := .snk x) hu⟩

end Sys2Proof.Machine
end

section
/-! The invariant of the machine (R14, R15, R113, R114, R129, R153, R168): the state after reset meets it,
and every step keeps it. While a stream operation takes the answers that are ready, the invariant holds
but for the answers still untaken; each beat keeps that, and the end of the run gives the invariant. -/

namespace Sys2Proof.Machine

/-! ### What the decoder delivers -/

theorem taglen_mem_lengths (b : Byte) : taglen b ∈ lengths := by
  rcases taglen_cases b with ⟨-, h⟩ | ⟨-, -, h⟩ | ⟨-, -, h⟩ | ⟨-, h⟩ <;> simp [h, lengths]

/-- The Value that a slice decodes to lies below the bound of its declared length (R58, R150). -/
theorem decOf_ok_range {bs : List Byte} {v : Value} {L : Nat} (h : decOf bs = .ok (v, L)) :
    L ∈ lengths ∧ v.toNat < 2 ^ payloadBits L := by
  cases bs with
  | nil => cases h
  | cons b0 rest =>
    rw [decOf] at h
    split at h
    · cases h
    · next hlong =>
      obtain ⟨rfl, rfl⟩ : accumulate b0 (rest.take (taglen b0 - 1)) = v ∧ taglen b0 = L := by
        simpa using h
      have hpos := taglen_pos b0
      have hle := taglen_le b0
      have hlen : (rest.take (taglen b0 - 1)).length = taglen b0 - 1 := by
        rw [List.length_take]; omega
      refine ⟨taglen_mem_lengths b0, ?_⟩
      rw [accumulate_toNat _ _ (by omega), hlen, Nat.sub_add_cancel hpos]
      exact Nat.mod_lt _ (by positivity)

theorem lt_sixteen_of_mem_lengths {L : Nat} (h : L ∈ lengths) : L < 16 := by
  simp only [lengths, List.mem_cons, List.not_mem_nil, or_false] at h; omega

theorem lenOf_mem_lengths {v : VIn} {L : Nat} (h : lenOf v = some L) : L ∈ lengths := by
  rcases lenOf_cases h with ⟨rfl, -⟩ | ⟨rfl, -⟩ | ⟨rfl, -⟩ | ⟨rfl, -⟩ <;> decide

theorem lenPort_lenOf {v : VIn} {L : Nat} (h : lenOf v = some L) : (lenPort L).toNat = L :=
  lenPort_toNat (lt_sixteen_of_mem_lengths (lenOf_mem_lengths h))

theorem decodeOp_wf (op : BitVec 3) : (decodeOp op).wf = true := by
  unfold decodeOp; split <;> rfl

theorem wireForm_wf {L : Nat} {v : Value} (hL : L ∈ lengths) (hv : v.toNat < 2 ^ payloadBits L) :
    (wireForm L v).wf = true := by
  simp only [lengths, List.mem_cons, List.not_mem_nil, or_false] at hL
  rcases hL with rfl | rfl | rfl | rfl <;> exact decide_eq_true hv

/-- A slot decodes to well-formed instructions only. -/
theorem decode_wf {slot : Slot} {i : Instr} (h : decode slot = .ok i) : i.wf = true := by
  cases slot with
  | command u op =>
    rw [decode] at h
    split at h
    · cases h; exact decodeOp_wf op
    · cases h
  | encoding bs =>
    rw [decode] at h
    split at h
    · next v L hd =>
      cases h
      obtain ⟨hL, hv⟩ := decOf_ok_range hd
      exact wireForm_wf hL hv
    · cases h

/-! ### Results of a shape the spec gives -/

theorem wf_okLen {v : VIn} {L : Nat} (h : lenOf v = some L) :
    (Delivery.enc .ok (some (lenPort L))).wf = true := by
  have hport : (lenPort L).toNat ∈ lengths := by rw [lenPort_lenOf h]; exact lenOf_mem_lengths h
  exact decide_eq_true hport

theorem wf_okParse {L : Nat} {v : Value} (hL : L ∈ lengths) (hv : v.toNat < 2 ^ payloadBits L) :
    (Delivery.dec .ok (some v) (some (lenPort L))).wf = true := by
  have hok : okDecoded v (lenPort L).toNat = true := by
    rw [lenPort_toNat (lt_sixteen_of_mem_lengths hL)]; simp [okDecoded, hL, hv]
  exact hok

theorem wf_missing (m : Missing) : (Delivery.dec (missingStatus m) none none).wf = true := by
  cases m <;> rfl

theorem wf_taglen (b : Byte) : (Delivery.lte (tagOf b) (lenPort (taglen b))).wf = true := by
  have hport : (lenPort (taglen b)).toNat = 2 ^ (tagOf b).toNat := by
    rw [lenPort_toNat (lt_sixteen_of_mem_lengths (taglen_mem_lengths b)), taglen, Nat.one_shiftLeft]
  exact beq_iff_eq.2 hport

theorem readsFailure_wf {s : State} {a : PullAnswer} {k : Status} (h : readsFailure s a k) :
    (Delivery.dec k none none).wf = true := by
  cases a with
  | byte b => exact h.elim
  | fail e => rw [show k = .io e from h]; rfl
  | exhausted =>
    rw [readsFailure] at h
    cases hp : s.dec.phase <;> rw [hp] at h <;> rw [h] <;> rfl

theorem wf_concat {ds : List Delivery} {d : Delivery} (hds : ∀ x ∈ ds, x.wf = true) (hd : d.wf = true) :
    ∀ x ∈ ds ++ [d], x.wf = true := by
  simpa [or_imp, forall_and, hd] using hds

/-- Delivering a result of a shape the spec gives keeps the invariant. -/
theorem State.Inv.deliver {s : State} {d : Delivery} (h : s.Inv) (hd : d.wf = true) :
    (s.deliver d).Inv := by
  obtain ⟨hdec, henc, hslice, hdst, hcount, hres⟩ := h
  exact ⟨hdec, henc, hslice, hdst, hcount, wf_concat hres hd⟩

/-! ### Room in the accumulator -/

/-- Byte 0 leaves room for the bytes still to come (R153). -/
theorem accStart_room (b : Byte) :
    (accStart b).toNat * 2 ^ (8 * (BitVec.ofNat 3 (taglen b - 1)).toNat) < 2 ^ 62 := by
  rw [accStart_toNat, BitVec.toNat_ofNat]
  have hm : b.toNat % 64 < 64 := Nat.mod_lt _ (by norm_num)
  rcases taglen_cases b with ⟨-, h⟩ | ⟨-, -, h⟩ | ⟨-, -, h⟩ | ⟨-, h⟩ <;> rw [h] <;> norm_num <;> omega

/-- A further byte leaves room for the bytes still to come, one fewer (R153). -/
theorem accNext_room {acc : Value} {rem : BitVec 3} (b : Byte) (h0 : rem ≠ 0)
    (h : acc.toNat * 2 ^ (8 * rem.toNat) < 2 ^ 62) :
    (accNext acc b).toNat * 2 ^ (8 * (rem - 1).toNat) < 2 ^ 62 := by
  have hb := b.isLt
  have hrem := rem.isLt
  obtain ⟨k, hk⟩ : ∃ k, rem.toNat = k + 1 :=
    Nat.exists_eq_succ_of_ne_zero fun hz => h0 (BitVec.eq_of_toNat_eq hz)
  have hk' : (rem - 1).toNat = k := by bv_omega
  rw [hk] at h
  have hfit : acc.toNat < 2 ^ (62 - 8 * (k + 1)) :=
    Nat.lt_of_mul_lt_mul_right (a := 2 ^ (8 * (k + 1))) (by rwa [← pow_add, Nat.sub_add_cancel (by omega)])
  have h54 : acc.toNat < 2 ^ 54 := hfit.trans_le (Nat.pow_le_pow_right (by norm_num) (by omega))
  rw [hk', accNext_toNat h54]
  calc (256 * acc.toNat + b.toNat) * 2 ^ (8 * k)
      < (2 ^ 8 * 2 ^ (62 - 8 * (k + 1))) * 2 ^ (8 * k) :=
        Nat.mul_lt_mul_of_pos_right (by omega) (by positivity)
    _ = 2 ^ 62 := by rw [← pow_add, ← pow_add]; congr 1; omega

/-- A beat that brings a byte and leaves some to come leaves room for exactly them (R114, R153). -/
theorem readsByte_room {s : State} {a : PullAnswer} {acc : BitVec 62} {rem : BitVec 3} (h : s.decInv)
    (hb : readsByte s a acc rem) : acc.toNat * 2 ^ (8 * rem.toNat) < 2 ^ 62 := by
  obtain ⟨b, -, ⟨-, rfl, rfl⟩ | ⟨hp, rfl, rfl⟩⟩ := hb
  · exact accStart_room b
  · obtain ⟨-, -, hbody⟩ := h
    obtain ⟨h0, hroom⟩ := hbody hp
    exact accNext_room b h0 hroom

/-! ### Answers taken by a `READ` -/

/-- The invariant but for the answers that the source has ready. -/
def State.InvButAnswers (s : State) : Prop := (s.withSrc { s.src with answers := [] }).Inv

theorem State.Inv.butAnswers {s : State} (h : s.Inv) : s.InvButAnswers := by
  obtain ⟨⟨hphase, -, hbody⟩, hrest⟩ := h
  exact ⟨⟨hphase, fun _ => rfl, hbody⟩, hrest⟩

/-- No answer is untaken while no `READ` is in flight, whatever the source has ready. -/
theorem State.InvButAnswers.withAnswers {s : State} (h : s.InvButAnswers) (hr : s.dec.reading = false)
    (as : List PullAnswer) : (s.withSrc { s.src with answers := as }).Inv := by
  obtain ⟨⟨hphase, -, hbody⟩, hrest⟩ := h
  exact ⟨⟨hphase, fun hr' => absurd (hr.symm.trans hr') (by decide), hbody⟩, hrest⟩

/-- A decoder that is idle has nothing of the invariant to keep. -/
theorem State.decInv_of_idle {s : State} (hr : s.dec.reading = false) (hp : s.dec.phase = .idle) :
    s.decInv := by
  simp [State.decInv, hr, hp]

theorem State.InvButAnswers.readBeat {s : State} (h : s.InvButAnswers) (hr : s.dec.reading = true)
    (a : PullAnswer) : (s.readBeat a).InvButAnswers := by
  obtain ⟨hdec, henc, hslice, hdst, hcount, hres⟩ := h
  replace hcount : s.src.taken + 1 ≤ s.src.pulls := by simpa [hr] using hcount
  rcases s.readBeat_cases a with ⟨acc, -, he⟩ | ⟨acc, rem, h0, hb, he⟩ | ⟨k, hk, he⟩ <;>
    rw [he]
  · exact ⟨State.decInv_of_idle rfl rfl, henc, hslice, hdst, hcount, wf_concat hres rfl⟩
  · have hroom := readsByte_room hdec hb
    refine ⟨⟨fun _ => hr, fun _ => rfl, fun _ => ⟨h0, hroom⟩⟩, henc, hslice, hdst, ?_, hres⟩
    simpa [hr] using hcount
  · exact ⟨State.decInv_of_idle rfl rfl, henc, hslice, hdst, Nat.le_of_succ_le hcount,
      wf_concat hres (readsFailure_wf hk)⟩

/-- Answers taken by a waiting `READ`, or left with the source, give the invariant. -/
theorem State.InvButAnswers.readRun {s : State} (h : s.InvButAnswers) (as : List PullAnswer) :
    (readRun as s).Inv := by
  induction as generalizing s with
  | nil => exact h
  | cons a as ih =>
    cases hr : s.dec.reading with
    | false => rw [readRun_cons_idle a as hr]; exact h.withAnswers hr _
    | true => rw [readRun_cons_busy a as hr]; exact ih (h.readBeat hr a)

theorem State.Inv.startRead {s : State} (h : s.Inv) (hr : s.dec.reading = false) :
    s.startRead.InvButAnswers := by
  obtain ⟨-, henc, hslice, hdst, hcount, hres⟩ := h
  refine ⟨⟨nofun, fun _ => rfl, nofun⟩, henc, hslice, hdst, ?_, hres⟩
  simpa [hr, State.startRead, State.issuePull] using hcount

/-! ### Beats taken by a `WRITE` -/

/-- The invariant but for what the sink is ready to do. -/
def State.InvButBeats (s : State) : Prop := (s.withSnk { s.snk with beats := [] }).Inv

theorem State.Inv.butBeats {s : State} (h : s.Inv) : s.InvButBeats := by
  obtain ⟨hdec, henc, hrest⟩ := h
  refine ⟨hdec, fun hp => ?_, hrest⟩
  obtain ⟨-, hbyte⟩ := henc hp
  exact ⟨rfl, hbyte⟩

/-- An encoder that is idle has nothing of the invariant to keep. -/
theorem State.encInv_of_idle {s : State} (hp : s.enc.phase = .idle) : s.encInv := by
  simp [State.encInv, hp]

theorem State.InvButBeats.withBeats {s : State} (h : s.InvButBeats) (hp : s.enc.phase = .idle)
    (bs : List SinkBeat) : (s.withSnk { s.snk with beats := bs }).Inv := by
  obtain ⟨hdec, -, hrest⟩ := h
  exact ⟨hdec, State.encInv_of_idle hp, hrest⟩

theorem State.InvButBeats.writeBeat {s : State} (h : s.InvButBeats) (hp : s.enc.phase = .pushing)
    (b : SinkBeat) : (s.writeBeat b).InvButBeats := by
  obtain ⟨hdec, henc, hslice, hdst, hcount, hres⟩ := h
  rcases s.writeBeat_cases b with ⟨-, -, he⟩ | ⟨-, hmore, he⟩ | ⟨x, -, he⟩ <;> rw [he]
  · exact ⟨hdec, State.encInv_of_idle rfl, hslice, hdst, hcount, wf_concat hres rfl⟩
  · obtain ⟨-, hidx, -, hword⟩ := henc hp
    exact ⟨hdec, fun _ => ⟨rfl, Nat.lt_of_le_of_ne hidx hmore, List.getLast?_concat, hword⟩, hslice, hdst,
      hcount, hres⟩
  · exact ⟨hdec, State.encInv_of_idle rfl, hslice, hdst, hcount, wf_concat hres rfl⟩

/-- Beats taken by a waiting `WRITE`, or left with the sink, give the invariant. -/
theorem State.InvButBeats.writeRun {s : State} (h : s.InvButBeats) (bs : List SinkBeat) :
    (writeRun bs s).Inv := by
  induction bs generalizing s with
  | nil => exact h
  | cons b bs ih =>
    cases hp : s.enc.phase with
    | idle => rw [writeRun_idle _ hp]; exact h.withBeats hp _
    | pushing => rw [writeRun_cons_busy b bs hp]; exact ih (h.writeBeat hp b)

/-- The first push names byte 0 of the canonical encoding of the value sampled (R129). -/
theorem State.Inv.startWrite {s : State} {L : Nat} (h : s.Inv) (hL : lenOf s.vPort = some L) :
    (s.startWrite L).InvButBeats := by
  obtain ⟨hdec, -, hrest⟩ := h
  have hport := lenPort_lenOf hL
  have hpos : 0 < L := by rcases lenOf_cases hL with h | h | h | h <;> omega
  refine ⟨hdec, fun _ => ⟨rfl, ?_, List.getLast?_concat, s.vPort, ?_, ?_⟩, hrest⟩
  · show 0 < (lenPort L).toNat
    rwa [hport]
  · show lenOf s.vPort = some (lenPort L).toNat
    rw [hport, hL]
  · show wireWord L s.vPort = wireWord (lenPort L).toNat s.vPort
    rw [hport]

/-! ### Moves that touch no unit, and reset -/

theorem State.Inv.withSlice {s : State} {sp : Space} (h : s.Inv) (hw : sp.wf = true) (x : SliceHandle) :
    (s.withSlice x sp).Inv := by
  obtain ⟨hdec, henc, -, hrest⟩ := h
  exact ⟨hdec, henc, hw, hrest⟩

theorem State.Inv.withDst {s : State} {d : Buffer} (h : s.Inv) (hw : d.space.wf = true) :
    (s.withDst d).Inv := by
  obtain ⟨hdec, henc, hslice, -, hrest⟩ := h
  exact ⟨hdec, henc, hslice, hw, hrest⟩

theorem State.Inv.resetUnits {s : State} (h : s.Inv) : s.resetUnits.Inv := by
  obtain ⟨-, -, hslice, hdst, hcount, hres⟩ := h
  exact ⟨State.decInv_of_idle rfl rfl, State.encInv_of_idle rfl, hslice, hdst,
    (Nat.le_add_right _ _).trans hcount, hres⟩

/-- What the sink holds is no part of the invariant. -/
theorem State.Inv.sinkMayHold {s : State} (h : s.Inv) (keeps : Bool) : (s.sinkMayHold keeps).Inv := by
  cases keeps <;> exact h

theorem State.Inv.resetBlock {s : State} (h : s.Inv) (keeps : Bool) : (s.resetBlock keeps).Inv := by
  unfold State.resetBlock
  split
  · exact (h.sinkMayHold keeps).resetUnits
  · exact h.resetUnits

/-! ### Every step -/

/-- A well-formed instruction keeps the invariant. -/
theorem exec_keeps_inv {i : Instr} {s t : State} (hi : i.wf = true) (hs : s.Inv)
    (h : exec i s = .next t) : t.Inv := by
  replace h := exec_next h
  cases i with
  | len =>
    obtain ⟨-, ⟨L, hL, rfl⟩ | ⟨-, rfl⟩⟩ := h
    · exact hs.deliver (wf_okLen hL)
    · exact hs.deliver rfl
  | append =>
    obtain ⟨-, ⟨L, -, -, rfl⟩ | ⟨-, rfl⟩⟩ := h
    · have ⟨_, _, _, hdst, _⟩ := hs
      exact (hs.withDst (Space.wf_append _ _ hdst)).deliver rfl
    · exact hs.deliver rfl
  | parse =>
    obtain ⟨-, ⟨v, L, hd, rfl⟩ | ⟨m, -, rfl⟩⟩ := h
    · obtain ⟨hL, hv⟩ := decOf_ok_range hd
      exact hs.deliver (wf_okParse hL hv)
    · exact hs.deliver (wf_missing m)
  | peek =>
    obtain ⟨-, ⟨v, L, -, rfl⟩ | ⟨m, -, rfl⟩⟩ := h
    · exact hs.deliver rfl
    · exact hs.deliver (wf_missing m)
  | read =>
    obtain ⟨hr, rfl⟩ := h
    exact (hs.startRead hr).readRun _
  | write =>
    obtain ⟨-, ⟨L, hL, rfl⟩ | ⟨-, rfl⟩⟩ := h
    · exact (hs.startWrite hL).writeRun _
    · exact hs.deliver rfl
  | taglen => rw [h]; exact hs.deliver (wf_taglen _)
  | reservedOp7 => exact h.elim
  | vi1 v => obtain ⟨-, rfl⟩ := h; exact hs.deliver (wf_okParse (L := 1) (by decide) (of_decide_eq_true hi))
  | vi2 v => obtain ⟨-, rfl⟩ := h; exact hs.deliver (wf_okParse (L := 2) (by decide) (of_decide_eq_true hi))
  | vi4 v => obtain ⟨-, rfl⟩ := h; exact hs.deliver (wf_okParse (L := 4) (by decide) (of_decide_eq_true hi))
  | vi8 v => obtain ⟨-, rfl⟩ := h; exact hs.deliver (wf_okParse (L := 8) (by decide) (of_decide_eq_true hi))

/-- Every move of the host or the environment keeps the invariant. -/
theorem take_keeps_inv {s t : State} {e : Event} (hs : s.Inv) (h : s.take e = .next t) : t.Inv := by
  replace h := take_next h
  cases e with
  | present slot =>
    obtain ⟨i, hd, he⟩ | ⟨m, -, -, rfl⟩ := h
    · exact exec_keeps_inv (decode_wf hd) hs he
    · exact hs.deliver (wf_missing m)
  | driveV v => rw [h]; exact hs
  | driveB0 b => rw [h]; exact hs
  | giveSlice bs => rw [h]; exact hs.withSlice (Space.wf_ofBytes bs) _
  | giveDstAsSlice => rw [h]; exact hs.withSlice rfl _
  | setCursor c => rw [h]; exact hs
  | giveDst bs cap => rw [h]; exact hs.withDst (Space.wf_ofBytes bs)
  | giveSrc as =>
    obtain ⟨hr, rfl⟩ := h
    obtain ⟨⟨hphase, -, hbody⟩, henc, hslice, hdst, -, hres⟩ := hs
    exact ⟨⟨hphase, fun hr' => absurd (hr.symm.trans hr') (by decide), hbody⟩, henc, hslice, hdst,
      by simp [hr], hres⟩
  | srcAnswer a => rw [h]; exact hs.butAnswers.readRun _
  | giveSnk bs =>
    obtain ⟨hp, rfl⟩ := h
    obtain ⟨hdec, -, hrest⟩ := hs
    exact ⟨hdec, State.encInv_of_idle hp, hrest⟩
  | snkAnswer b => rw [h]; exact hs.butBeats.writeRun _
  | reset keeps => rw [h]; exact hs.resetBlock keeps
  | resetInAppend =>
    obtain ⟨-, ⟨-, rfl⟩ | ⟨L, -, -, rfl⟩⟩ := h
    · exact hs.resetUnits
    · exact (hs.withDst (Space.wf_ofBytes _)).resetUnits

/-- Settles O53: a step takes the first move, if one is to come, and every move keeps the invariant. -/
theorem stepKeepsInvariant : Obligations.StepKeepsInvariant := by
  intro s t hs h
  obtain ⟨-, rfl⟩ | ⟨e, es, -, he⟩ := step_next h
  · exact hs
  · have hes : (s.withInbox es).Inv := hs
    exact take_keeps_inv hes he

/-- Settles O54. -/
theorem resetMeetsInvariant : Obligations.ResetMeetsInvariant := by
  have hinv : State.reset.Inv :=
    ⟨State.decInv_of_idle rfl rfl, State.encInv_of_idle rfl, State.reset_spaces_wf.1,
      State.reset_spaces_wf.2, le_refl 0, by simp [State.reset]⟩
  exact ⟨hinv, ⟨rfl, rfl, rfl⟩, rfl⟩

end Sys2Proof.Machine
end

section
/-! What of the registers is alive (R10, R14, R15, R20, U12): blanking the dead registers before a step
changes its outcome in dead registers only. -/

namespace Sys2Proof.Machine

/-! ### Blanking the dead registers -/

theorem DecRegs.live_of_idle {d : DecRegs} (h : d.reading = false) :
    d.live = State.reset.dec.live := by
  simp [DecRegs.live, State.reset, h]

theorem DecRegs.live_of_body {d : DecRegs} (hr : d.reading = true) (hp : d.phase = .body) :
    d.live = d := if_pos ⟨hr, hp⟩

theorem EncRegs.live_of_idle {e : EncRegs} (h : e.phase = .idle) : e.live = State.reset.enc.live := by
  simp [EncRegs.live, State.reset, h]

theorem EncRegs.live_of_pushing {e : EncRegs} (h : e.phase = .pushing) : e.live = e := if_pos h

@[simp] theorem DecRegs.live_reading (d : DecRegs) : d.live.reading = d.reading := by
  unfold DecRegs.live; split <;> rfl

/-- The phase is alive in a `READ`. -/
theorem DecRegs.live_phase {d : DecRegs} (h : d.reading = true) : d.live.phase = d.phase := by
  cases hp : d.phase <;> simp [DecRegs.live, h, hp]

@[simp] theorem EncRegs.live_phase (e : EncRegs) : e.live.phase = e.phase := by
  unfold EncRegs.live; split <;> rfl

@[simp] theorem DecRegs.live_live (d : DecRegs) : d.live.live = d.live := by
  by_cases h : d.reading = true ∧ d.phase = .body <;> simp [DecRegs.live, h]

@[simp] theorem EncRegs.live_live (e : EncRegs) : e.live.live = e.live := by
  by_cases h : e.phase = .pushing <;> simp [EncRegs.live, h]

@[simp] theorem State.live_live (s : State) : s.live.live = s.live := by simp [State.live]

/-! ### What the dead registers leave as it is -/

@[simp] theorem State.live_dec (s : State) : s.live.dec = s.dec.live := rfl
@[simp] theorem State.live_enc (s : State) : s.live.enc = s.enc.live := rfl
@[simp] theorem State.live_vPort (s : State) : s.live.vPort = s.vPort := rfl
@[simp] theorem State.live_b0Port (s : State) : s.live.b0Port = s.b0Port := rfl
@[simp] theorem State.live_dst (s : State) : s.live.dst = s.dst := rfl
@[simp] theorem State.live_src (s : State) : s.live.src = s.src := rfl
@[simp] theorem State.live_snk (s : State) : s.live.snk = s.snk := rfl
@[simp] theorem State.live_inbox (s : State) : s.live.inbox = s.inbox := rfl
@[simp] theorem State.live_draws (s : State) : s.live.draws = s.draws := rfl
@[simp] theorem State.live_sliceBytes (s : State) : s.live.sliceBytes = s.sliceBytes := rfl
@[simp] theorem State.live_struckBytes (s : State) : s.live.struckBytes = s.struckBytes := rfl
@[simp] theorem State.live_idleDec (s : State) : s.live.idleDec = s.idleDec := rfl
@[simp] theorem State.live_idleEnc (s : State) : s.live.idleEnc = s.idleEnc := rfl

/-! ### Updates of the state -/

theorem State.live_withDec (s : State) (d : DecRegs) : (s.withDec d).live = s.live.withDec d.live := rfl
theorem State.live_withEnc (s : State) (e : EncRegs) : (s.withEnc e).live = s.live.withEnc e.live := rfl
@[simp] theorem State.live_deliver (s : State) (d : Delivery) : (s.deliver d).live = s.live.deliver d := rfl
@[simp] theorem State.live_withVPort (s : State) (v : VIn) : (s.withVPort v).live = s.live.withVPort v := rfl
@[simp] theorem State.live_withB0Port (s : State) (b : Byte) : (s.withB0Port b).live = s.live.withB0Port b := rfl
@[simp] theorem State.live_withSlice (s : State) (h : SliceHandle) (sp : Space) :
    (s.withSlice h sp).live = s.live.withSlice h sp := rfl
@[simp] theorem State.live_withCursor (s : State) (c : Nat) : (s.withCursor c).live = s.live.withCursor c := rfl
@[simp] theorem State.live_withDst (s : State) (d : Buffer) : (s.withDst d).live = s.live.withDst d := rfl
@[simp] theorem State.live_withSrc (s : State) (x : Source) : (s.withSrc x).live = s.live.withSrc x := rfl
@[simp] theorem State.live_withSnk (s : State) (x : Sink) : (s.withSnk x).live = s.live.withSnk x := rfl
@[simp] theorem State.live_draw (s : State) : s.draw.live = s.live.draw := rfl

/-! ### Accepting a command -/

@[simp] theorem State.live_encBusy (s : State) : s.live.encBusy = s.encBusy := by simp [State.encBusy]

@[simp] theorem State.live_decBusy (s : State) : s.live.decBusy = s.decBusy := by simp [State.decBusy]

theorem State.atEnc_live {s : State} {f : State → Result} (h : liveResult (f s.live) = liveResult (f s)) :
    liveResult (s.live.atEnc f) = liveResult (s.atEnc f) := by
  rw [State.atEnc, State.atEnc, State.live_encBusy]
  split
  · rfl
  · exact h

theorem State.atDec_live {s : State} {f : State → Result} (h : liveResult (f s.live) = liveResult (f s)) :
    liveResult (s.live.atDec f) = liveResult (s.atDec f) := by
  rw [State.atDec, State.atDec, State.live_decBusy]
  split
  · rfl
  · exact h

@[simp] theorem liveResult_next (s : State) : liveResult (.next s) = .next s.live := rfl

/-! ### Operations without a stream -/

theorem execLen_live (s : State) : liveResult (execLen s.live) = liveResult (execLen s) := by
  refine State.atEnc_live ?_
  rw [State.live_vPort]
  cases lenOf s.vPort <;> simp

theorem execAppend_live (s : State) : liveResult (execAppend s.live) = liveResult (execAppend s) := by
  refine State.atEnc_live ?_
  rw [State.live_vPort, State.live_dst]
  cases lenOf s.vPort with
  | none => simp
  | some L => by_cases hr : s.dst.hasRoom L = true <;> simp [hr]

theorem State.decodeSlice_live (s : State) (out : Value → Nat → Delivery) :
    liveResult (s.live.decodeSlice out) = liveResult (s.decodeSlice out) := by
  rw [State.decodeSlice, State.decodeSlice, State.live_sliceBytes]
  cases decOf s.sliceBytes <;> simp

theorem execParse_live (s : State) : liveResult (execParse s.live) = liveResult (execParse s) := by
  refine State.atDec_live ?_
  exact s.decodeSlice_live _

theorem execPeek_live (s : State) : liveResult (execPeek s.live) = liveResult (execPeek s) := by
  refine State.atDec_live ?_
  exact s.decodeSlice_live _

theorem State.takeForm_live (s : State) (L : Nat) (v : Value) :
    liveResult (s.live.takeForm L v) = liveResult (s.takeForm L v) :=
  State.atDec_live (by simp)

/-! ### `READ` -/

/-- The start of a `READ` writes what is alive before the first byte. -/
theorem State.startRead_live (s : State) : s.live.startRead.live = s.startRead.live := by
  simp [State.startRead, State.issuePull, State.live_withDec, DecRegs.live]

theorem State.endRead_live (s : State) : s.live.endRead.live = s.endRead.live := by
  simp [State.endRead, State.live_withDec]

/-- After the last byte nothing of the decoder's registers is left. -/
theorem State.afterByte_zero (s : State) (acc : BitVec 62) :
    s.afterByte acc 0 = ((s.withDec s.idleDec).tookByte.draw).deliver (Delivery.okValue acc) := rfl

/-- Of the decoder's registers, what a byte leaves depends on the accumulated Value only. -/
theorem State.afterByte_live (s : State) (acc : BitVec 62) (rem : BitVec 3) :
    (s.live.afterByte acc rem).live = (s.afterByte acc rem).live := by
  by_cases h0 : rem = 0
  · subst h0
    rw [State.afterByte_zero, State.afterByte_zero]
    simp [State.tookByte, State.live_withDec]
  · rw [State.afterByte, State.afterByte, if_neg h0, if_neg h0]
    simp [State.tookByte, State.issuePull, State.live_withDec]

/-- A beat looks at the accumulator in the middle of a value only, where it is alive (R114). -/
theorem State.readBeat_live {s : State} (hr : s.dec.reading = true) (a : PullAnswer) :
    (s.live.readBeat a).live = (s.readBeat a).live := by
  have hphase : s.live.dec.phase = s.dec.phase := DecRegs.live_phase hr
  cases hp : s.dec.phase with
  | idle => cases a <;> simp only [State.readBeat, hphase, hp, State.raise_dec, State.live_deliver,
      State.endRead_live, State.afterByte_live]
  | body =>
    have hdec : s.live.dec = s.dec := DecRegs.live_of_body hr hp
    cases a <;> simp only [State.readBeat, hdec, hp, State.raise_dec, State.live_deliver,
      State.endRead_live, State.afterByte_live]

theorem readRun_live (as : List PullAnswer) (s : State) : (readRun as s.live).live = (readRun as s).live := by
  induction as generalizing s with
  | nil => simp [readRun_nil]
  | cons a as ih =>
    have hreading : s.live.dec.reading = s.dec.reading := DecRegs.live_reading s.dec
    cases hr : s.dec.reading with
    | false => simp [readRun_idle _ hr, readRun_idle _ (hreading.trans hr)]
    | true =>
      rw [readRun_cons_busy a as hr, readRun_cons_busy a as (hreading.trans hr), ← ih (s.live.readBeat a),
        State.readBeat_live hr, ih]

theorem execRead_live (s : State) : liveResult (execRead s.live) = liveResult (execRead s) := by
  refine State.atDec_live ?_
  rw [liveResult_next, liveResult_next, State.live_src, ← readRun_live _ s.live.startRead,
    State.startRead_live, readRun_live]

/-! ### `WRITE` -/

/-- The start of a `WRITE` writes every register of the encoder. -/
theorem State.startWrite_live (s : State) (L : Nat) : (s.live.startWrite L).live = (s.startWrite L).live := by
  simp [State.startWrite, State.issuePush, State.live_withEnc]

theorem State.endWrite_live (s : State) : s.live.endWrite.live = s.endWrite.live := by
  simp [State.endWrite, State.live_withEnc]

/-- A beat finds the encoder pushing, where its registers are alive (R129). -/
theorem State.writeBeat_live {s : State} (hp : s.enc.phase = .pushing) (b : SinkBeat) :
    (s.live.writeBeat b).live = (s.writeBeat b).live := by
  have henc : s.enc.live = s.enc := EncRegs.live_of_pushing hp
  rcases b with ⟨_ | x, keeps⟩
  · by_cases hl : s.enc.idx + 1 = s.enc.len.toNat <;>
      simp [State.writeBeat, henc, hl, State.sinkHolds, State.issuePush, State.endWrite, State.live_withEnc,
        State.idleEnc]
  · cases keeps <;>
      simp [State.writeBeat, henc, State.sinkMayHold, State.sinkHolds, State.endWrite, State.live_withEnc,
        State.idleEnc]

theorem writeRun_live (bs : List SinkBeat) (s : State) : (writeRun bs s.live).live = (writeRun bs s).live := by
  induction bs generalizing s with
  | nil => simp [writeRun_nil]
  | cons b bs ih =>
    have hphase : s.live.enc.phase = s.enc.phase := EncRegs.live_phase s.enc
    cases hp : s.enc.phase with
    | idle => simp [writeRun_idle _ hp, writeRun_idle _ (hphase.trans hp)]
    | pushing =>
      rw [writeRun_cons_busy b bs hp, writeRun_cons_busy b bs (hphase.trans hp), ← ih (s.live.writeBeat b),
        State.writeBeat_live hp, ih]

theorem execWrite_live (s : State) : liveResult (execWrite s.live) = liveResult (execWrite s) := by
  refine State.atEnc_live ?_
  rw [State.live_vPort, State.live_snk]
  cases lenOf s.vPort with
  | none => simp
  | some L =>
    simp only [liveResult_next]
    rw [← writeRun_live _ (s.live.startWrite L), State.startWrite_live, writeRun_live]

/-! ### Every step -/

theorem exec_live (i : Instr) (s : State) : liveResult (exec i s.live) = liveResult (exec i s) := by
  cases i with
  | len => exact execLen_live s
  | append => exact execAppend_live s
  | parse => exact execParse_live s
  | peek => exact execPeek_live s
  | read => exact execRead_live s
  | write => exact execWrite_live s
  | taglen => simp [exec, execTaglen]
  | reservedOp7 => rfl
  | vi1 v => exact State.takeForm_live s 1 v
  | vi2 v => exact State.takeForm_live s 2 v
  | vi4 v => exact State.takeForm_live s 4 v
  | vi8 v => exact State.takeForm_live s 8 v

theorem rejectSlot_live (r : Reject) (s : State) :
    liveResult (rejectSlot r s.live) = liveResult (rejectSlot r s) := by
  cases r with
  | missing m =>
    simp only [rejectSlot]
    exact State.atDec_live (by simp)
  | notOwned => rfl

/-- Of the encoder's registers, a reset looks at those of a `WRITE` in flight only. -/
theorem State.resetBlock_live (s : State) (keeps : Bool) : s.live.resetBlock keeps = s.resetBlock keeps := by
  cases hp : s.enc.phase with
  | idle => simp [State.resetBlock, State.encBusy, hp]; rfl
  | pushing =>
    have henc : s.enc.live = s.enc := EncRegs.live_of_pushing hp
    cases keeps <;> simp [State.resetBlock, State.encBusy, hp, State.sinkMayHold, State.sinkHolds, henc] <;> rfl

theorem State.resetInAppend_live (s : State) :
    liveResult s.live.resetInAppend = liveResult s.resetInAppend := by
  refine State.atEnc_live ?_
  rw [State.live_vPort, State.live_dst, State.live_struckBytes]
  rfl

theorem take_live (s : State) (e : Event) : liveResult (s.live.take e) = liveResult (s.take e) := by
  cases e with
  | present slot =>
    simp only [State.take]
    cases decode slot with
    | ok i => exact exec_live i s
    | error r => exact rejectSlot_live r s
  | giveSrc as =>
    simp only [State.take, State.giveSrc, State.live_decBusy]
    split <;> simp
  | srcAnswer a => exact congrArg Host.Outcome.next (readRun_live _ s)
  | giveSnk bs =>
    simp only [State.take, State.giveSnk, State.live_encBusy]
    split <;> simp
  | snkAnswer b => exact congrArg Host.Outcome.next (writeRun_live _ s)
  | reset keeps => simp only [State.take, State.resetBlock_live]
  | resetInAppend => exact State.resetInAppend_live s
  | driveV v | driveB0 b | giveSlice bs | giveDstAsSlice | setCursor c | giveDst bs cap =>
    simp [State.take]

/-- Blanking the dead registers before a step changes its outcome in dead registers only. -/
theorem step_live (s : State) : liveResult (step s.live) = liveResult (step s) := by
  rw [step, step, State.live_inbox]
  cases s.inbox with
  | nil => simp
  | cons e es => exact take_live (s.withInbox es) e

/-- Settles O55: both steps have the outcome of the step from the state they have in common. -/
theorem deadRegistersAreUnobservable : Obligations.DeadRegistersAreUnobservable := by
  intro s t h
  calc liveResult (step s) = liveResult (step s.live) := (step_live s).symm
    _ = liveResult (step t.live) := by rw [h]
    _ = liveResult (step t) := step_live t

end Sys2Proof.Machine
end

section
/-! The units and the host (R10, R11, R16, R30, R42, R44, R101, R102, R169, R175): a busy unit refuses its
commands, a unit that has delivered its result is idle, and what the host hands over is what the
operations find. -/

namespace Sys2Proof.Machine

/-! ### Busy units -/

theorem exec_busy_enc {s : State} {i : Instr} (hp : s.enc.phase = .pushing) (hu : i.unit = some .enc) :
    exec i s = .refused (.busy .enc) := by
  cases i with
  | len => rw [exec, execLen, State.atEnc_busy hp]
  | append => rw [exec, execAppend, State.atEnc_busy hp]
  | write => rw [exec, execWrite, State.atEnc_busy hp]
  | _ => cases hu

theorem State.takeForm_busy {s : State} (hr : s.dec.reading = true) (L : Nat) (v : Value) :
    s.takeForm L v = .refused (.busy .dec) := by
  rw [State.takeForm, State.atDec_busy hr]

theorem exec_busy_dec {s : State} {i : Instr} (hr : s.dec.reading = true) (hu : i.unit = some .dec) :
    exec i s = .refused (.busy .dec) := by
  cases i with
  | parse => rw [exec, execParse, State.atDec_busy hr]
  | peek => rw [exec, execPeek, State.atDec_busy hr]
  | read => rw [exec, execRead, State.atDec_busy hr]
  | vi1 v => exact State.takeForm_busy hr 1 v
  | vi2 v => exact State.takeForm_busy hr 2 v
  | vi4 v => exact State.takeForm_busy hr 4 v
  | vi8 v => exact State.takeForm_busy hr 8 v
  | _ => cases hu

/-- Settles O50. -/
theorem busyUnitRefusesCommands : Obligations.BusyUnitRefusesCommands :=
  fun _ _ => ⟨exec_busy_enc, exec_busy_dec⟩

/-! ### An encoding presented by itself -/

theorem wireForm_unit (L : Nat) (v : Value) : (wireForm L v).unit = some .dec := by
  unfold wireForm; split <;> rfl

theorem take_encoding_whole {bs : List Byte} {v : Value} {L : Nat} (h : decOf bs = .ok (v, L)) (s : State) :
    s.take (.present (.encoding bs)) = exec (wireForm L v) s := by
  simp only [State.take, decode, h]

theorem take_encoding_missing {bs : List Byte} {m : Missing} (h : decOf bs = .error m) (s : State) :
    s.take (.present (.encoding bs)) =
      s.atDec fun s => .next (s.deliver (.dec (missingStatus m) none none)) := by
  simp only [State.take, decode, h, rejectSlot, State.raise_dec]

theorem decOf_short {b0 : Byte} {rest : List Byte} (h : rest.length + 1 < 2 ^ (b0.toNat / 64)) :
    decOf (b0 :: rest) = .error .shortBytes := by
  rw [decOf, if_pos (by rwa [taglen_eq])]

/-- Whole or not, an encoding is refused by a busy decoder (R16). -/
theorem take_encoding_busy {s : State} (hr : s.dec.reading = true) (bs : List Byte) :
    s.take (.present (.encoding bs)) = .refused (.busy .dec) := by
  cases hd : decOf bs with
  | error m => rw [take_encoding_missing hd, State.atDec_busy hr]
  | ok r => rw [take_encoding_whole hd, exec_busy_dec hr (wireForm_unit _ _)]

/-- Settles O30. -/
theorem presentedCutEncodingFails : Obligations.PresentedCutEncodingFails := by
  intro s
  refine ⟨fun hr => ?_, fun b0 rest hr hshort => ?_, fun bs hr => take_encoding_busy hr bs⟩
  · rw [take_encoding_missing (m := .noBytes) rfl, State.atDec_idle hr]; rfl
  · rw [take_encoding_missing (decOf_short hshort), State.atDec_idle hr]; rfl

/-! ### A unit after its result -/

theorem readRun_enc (as : List PullAnswer) (s : State) : (readRun as s).enc = s.enc := by
  obtain ⟨d, x, ds, he, -⟩ := readRun_frame as s
  rw [he]

theorem writeRun_dec (bs : List SinkBeat) (s : State) : (writeRun bs s).dec = s.dec := by
  obtain ⟨e, x, ds, he, -⟩ := writeRun_frame bs s
  rw [he]

/-- Answers that bring a result leave the decoder idle: one still reading has delivered none. -/
theorem readRun_idle_of_result {as : List PullAnswer} {s : State}
    (h : (readRun as s).delivered ≠ s.delivered) : (readRun as s).dec.reading = false := by
  obtain ⟨d, x, ds, he, hreading, -⟩ := readRun_frame as s
  rw [he] at h ⊢
  refine Bool.eq_false_iff.2 fun hr => h ?_
  obtain ⟨-, hnone, -⟩ := hreading hr
  simp [hnone]

/-- Beats that bring a result leave the encoder idle: one still pushing has delivered none. -/
theorem writeRun_idle_of_result {bs : List SinkBeat} {s : State}
    (h : (writeRun bs s).delivered ≠ s.delivered) : (writeRun bs s).enc.phase = .idle := by
  obtain ⟨e, x, ds, he, hpushing, -⟩ := writeRun_frame bs s
  rw [he] at h ⊢
  cases hp : e.phase with
  | idle => rfl
  | pushing =>
    obtain ⟨-, hnone, -⟩ := hpushing hp
    simp [hnone] at h

/-- An instruction of the decoder leaves the registers alone, or is a `READ`. -/
theorem exec_dec_next {i : Instr} {s t : State} (hu : i.unit = some .dec) (h : exec i s = .next t) :
    s.dec.reading = false ∧
      ((t.dec = s.dec ∧ t.enc = s.enc) ∨ t = readRun s.src.answers s.startRead) := by
  replace h := exec_next h
  cases i with
  | parse | peek =>
    obtain ⟨hr, ⟨v, L, -, rfl⟩ | ⟨m, -, rfl⟩⟩ := h <;> exact ⟨hr, .inl ⟨rfl, rfl⟩⟩
  | read =>
    obtain ⟨hr, rfl⟩ := h
    exact ⟨hr, .inr rfl⟩
  | vi1 | vi2 | vi4 | vi8 =>
    obtain ⟨hr, rfl⟩ := h
    exact ⟨hr, .inl ⟨rfl, rfl⟩⟩
  | _ => cases hu

/-- An instruction of the encoder leaves the registers alone, or is a `WRITE`. -/
theorem exec_enc_next {i : Instr} {s t : State} (hu : i.unit = some .enc) (h : exec i s = .next t) :
    s.enc.phase = .idle ∧
      ((t.enc = s.enc ∧ t.dec = s.dec) ∨ ∃ L, t = writeRun s.snk.beats (s.startWrite L)) := by
  replace h := exec_next h
  cases i with
  | len =>
    obtain ⟨hp, ⟨L, -, rfl⟩ | ⟨-, rfl⟩⟩ := h <;> exact ⟨hp, .inl ⟨rfl, rfl⟩⟩
  | append =>
    obtain ⟨hp, ⟨L, -, -, rfl⟩ | ⟨-, rfl⟩⟩ := h <;> exact ⟨hp, .inl ⟨rfl, rfl⟩⟩
  | write =>
    obtain ⟨hp, ⟨L, -, rfl⟩ | ⟨-, rfl⟩⟩ := h
    · exact ⟨hp, .inr ⟨L, rfl⟩⟩
    · exact ⟨hp, .inl ⟨rfl, rfl⟩⟩
  | _ => cases hu

theorem dec_idle_after_result {i : Instr} {s t : State} (hu : i.unit = some .dec)
    (h : exec i s = .next t) (hres : t.delivered ≠ s.delivered) :
    t.dec.live = State.reset.dec.live ∧ s.dec.live = State.reset.dec.live ∧ t.enc = s.enc := by
  obtain ⟨hr, ⟨hdec, henc⟩ | rfl⟩ := exec_dec_next hu h
  · exact ⟨by rw [hdec, DecRegs.live_of_idle hr], DecRegs.live_of_idle hr, henc⟩
  · exact ⟨DecRegs.live_of_idle (readRun_idle_of_result hres), DecRegs.live_of_idle hr, readRun_enc _ _⟩

theorem enc_idle_after_result {i : Instr} {s t : State} (hu : i.unit = some .enc)
    (h : exec i s = .next t) (hres : t.delivered ≠ s.delivered) :
    t.enc.live = State.reset.enc.live ∧ s.enc.live = State.reset.enc.live ∧ t.dec = s.dec := by
  obtain ⟨hp, ⟨henc, hdec⟩ | ⟨L, rfl⟩⟩ := exec_enc_next hu h
  · exact ⟨by rw [henc, EncRegs.live_of_idle hp], EncRegs.live_of_idle hp, hdec⟩
  · exact ⟨EncRegs.live_of_idle (writeRun_idle_of_result hres), EncRegs.live_of_idle hp, writeRun_dec _ _⟩

theorem lte_keeps_units {i : Instr} {s t : State} (hu : i.unit = some .lte) (h : exec i s = .next t) :
    t.dec = s.dec ∧ t.enc = s.enc := by
  replace h := exec_next h
  cases i with
  | taglen => rw [h]; exact ⟨rfl, rfl⟩
  | _ => cases hu

/-- Settles O56. -/
theorem unitIsIdleAfterResult : Obligations.UnitIsIdleAfterResult :=
  ⟨fun _ _ _ h hres => ⟨fun hu => dec_idle_after_result hu h hres, fun hu => enc_idle_after_result hu h hres,
     fun hu => lte_keeps_units hu h⟩,
   fun _ _ hres => ⟨DecRegs.live_of_idle (readRun_idle_of_result hres), readRun_enc _ _⟩,
   fun _ _ hres => ⟨EncRegs.live_of_idle (writeRun_idle_of_result hres), writeRun_dec _ _⟩⟩

/-! ### What the host hands over -/

theorem State.sliceSpace_own {s : State} (h : s.sliceHandle = .own) : s.sliceSpace = s.slice := by
  rw [State.sliceSpace, h]

theorem State.sliceSpace_dst {s : State} (h : s.sliceHandle = .dst) : s.sliceSpace = s.dst.space := by
  rw [State.sliceSpace, h]

/-- The slice operand with another buffer: the buffer from the cursor on if the slice port shows it. -/
theorem State.sliceBytes_withDst (s : State) (d : Buffer) :
    (s.withDst d).sliceBytes = if s.sliceHandle = .dst then d.space.bytes.drop s.cursor else s.sliceBytes := by
  cases hh : s.sliceHandle with
  | own => simp [State.sliceBytes, State.sliceSpace_own, hh]
  | dst => simp [State.sliceBytes, State.sliceSpace_dst, hh]

theorem take_giveSrc (s : State) (as : List PullAnswer) :
    s.take (.giveSrc as) = if s.dec.reading = true then .refused .handleInUse
      else .next (s.withSrc { answers := as, pulls := 0, taken := 0 }) := rfl

theorem take_giveSnk (s : State) (bs : List SinkBeat) :
    s.take (.giveSnk bs) = if s.enc.phase = .pushing then .refused .handleInUse
      else .next (s.withSnk { beats := bs, offered := [], contents := [] }) := by
  cases hp : s.enc.phase <;> simp [State.take, State.giveSnk, State.encBusy, hp]

/-- Settles O49. -/
theorem hostHandsOverOperands : Obligations.HostHandsOverOperands := by
  intro s
  refine ⟨fun bs => ?giveSlice, fun c => ?setCursor, ?giveDstAsSlice, fun bs cap => ?giveDst, fun _ => rfl,
    fun _ => rfl, take_giveSrc s, take_giveSnk s⟩
  case giveSlice =>
    have hspace : (s.withSlice .own (Space.ofBytes bs)).sliceSpace.bytes = bs := by
      rw [State.sliceSpace_own rfl, State.withSlice_slice, Space.bytes_ofBytes]
    exact ⟨_, rfl, hspace, hspace, rfl, rfl⟩
  case setCursor => exact ⟨_, rfl, rfl, rfl⟩
  case giveDstAsSlice => exact ⟨_, rfl, rfl, rfl, rfl⟩
  case giveDst =>
    refine ⟨_, rfl, Space.bytes_ofBytes bs, rfl, ?_, rfl⟩
    rw [State.sliceBytes_withDst, Space.bytes_ofBytes]

end Sys2Proof.Machine
end

section
/-! The bounds on what is read from a slice and written to a buffer (R13, R35, R37): decoding looks at the
declared bytes only, at most eight, and `APPEND` beyond the capacity is refused. -/

namespace Sys2Proof.Machine

/-! ### The bytes that decoding looks at -/

/-- Of the bytes after byte 0, decoding looks at the declared ones only. -/
theorem decOf_cons_congr {b0 : Byte} {r r' : List Byte}
    (h : r.take (taglen b0 - 1) = r'.take (taglen b0 - 1)) : decOf (b0 :: r) = decOf (b0 :: r') := by
  have hpos := taglen_pos b0
  have hlen := congrArg List.length h
  simp only [List.length_take] at hlen
  have hshort : r.length + 1 < taglen b0 ↔ r'.length + 1 < taglen b0 := by omega
  simp only [decOf, hshort, h]

theorem decOf_take_eight (bs : List Byte) : decOf bs = decOf (bs.take 8) := by
  cases bs with
  | nil => rfl
  | cons b0 r =>
    have hle : taglen b0 - 1 ≤ 7 := Nat.sub_le_sub_right (taglen_le b0) 1
    refine decOf_cons_congr (r' := r.take 7) ?_
    rw [List.take_take, Nat.min_eq_left hle]

/-- A slice that decodes has a byte 0, and all the bytes which that declares. -/
theorem decOf_ok_cons {bs : List Byte} {w : Value} {L : Nat} (h : decOf bs = .ok (w, L)) :
    ∃ b0 r, bs = b0 :: r ∧ L = taglen b0 ∧ taglen b0 - 1 ≤ r.length := by
  cases bs with
  | nil => cases h
  | cons b0 r =>
    rw [decOf] at h
    split at h
    · cases h
    · cases h; exact ⟨b0, r, rfl, rfl, by omega⟩

theorem decOf_append_of_ok {bs : List Byte} {w : Value} {L : Nat} (h : decOf bs = .ok (w, L))
    (tail : List Byte) : decOf (bs ++ tail) = .ok (w, L) := by
  obtain ⟨b0, r, rfl, -, hlen⟩ := decOf_ok_cons h
  rw [List.cons_append, ← h]
  exact decOf_cons_congr (List.take_append_of_le_length hlen)

theorem decOf_take_of_ok {bs : List Byte} {w : Value} {L : Nat} (h : decOf bs = .ok (w, L)) :
    decOf (bs.take L) = .ok (w, L) := by
  obtain ⟨b0, r, rfl, rfl, -⟩ := decOf_ok_cons h
  rw [← h, List.take_cons (taglen_pos b0)]
  exact decOf_cons_congr (by rw [List.take_take, min_self])

/-- Settles O10: each slice agrees with the other in byte 0 and the bytes that declares. -/
theorem decodeReadsDeclaredBytesOnly : Obligations.DecodeReadsDeclaredBytesOnly :=
  ⟨decOf_take_eight, fun _ tail _ _ h => ⟨decOf_append_of_ok h tail, decOf_take_of_ok h⟩⟩

/-! ### A full buffer -/

theorem Buffer.hasRoom_of_cap {d : Buffer} {c : Nat} (hc : d.cap = some c) (n : Nat) :
    d.hasRoom n = decide (d.space.len + n ≤ c) := by
  rw [Buffer.hasRoom, hc]

/-- Settles O21: the buffer has no room, and the encoder is idle and the value in the domain. -/
theorem appendBeyondCapacityIsRefused : Obligations.AppendBeyondCapacityIsRefused := by
  intro s L c hp hl hc hfull
  have hroom : s.dst.hasRoom L = false := by
    rw [Buffer.hasRoom_of_cap hc, decide_eq_false (by omega)]
  rw [exec, execAppend, State.atEnc_idle hp]
  simp [hl, hroom]

end Sys2Proof.Machine
end

section
/-! What the operations change (R11, R30, R36), and what the answers of a source and of a sink come to: it
is told by the unit they go to and its own stream, so that a `WRITE` in flight no longer sees its port
(R46) and the two streams do not see each other (R42). -/

namespace Sys2Proof.Machine

/-! ### The footprint of an instruction -/

/-- The state after the decoder has come to registers and source and delivered results, each with one
draw of the free values. -/
def State.afterReads (s : State) (d : DecRegs) (x : Source) (ds : List Delivery) : State :=
  { s with dec := d, src := x, delivered := s.delivered ++ ds, draws := s.draws + ds.length }

/-- The state after the encoder has come to registers and sink and delivered results, each with one
draw of the free values. -/
def State.afterWrites (s : State) (e : EncRegs) (x : Sink) (ds : List Delivery) : State :=
  { s with enc := e, snk := x, delivered := s.delivered ++ ds, draws := s.draws + ds.length }

theorem State.withSrc_eq_afterReads (s : State) (x : Source) : s.withSrc x = s.afterReads s.dec x [] := by
  simp [State.afterReads, State.withSrc]

theorem State.withSnk_eq_afterWrites (s : State) (x : Sink) : s.withSnk x = s.afterWrites s.enc x [] := by
  simp [State.afterWrites, State.withSnk]

/-- All that an instruction can change when it answers a next state. -/
theorem exec_footprint {i : Instr} {s t : State} (h : exec i s = .next t) :
    (∃ d, t = s.deliver d) ∨
    (i = .append ∧ ∃ b d, t = (s.withDst b).deliver d) ∨
    (i = .read ∧ ∃ d x ds, t = s.afterReads d x ds) ∨
    (i = .write ∧ ∃ e x ds, t = s.afterWrites e x ds) := by
  replace h := exec_next h
  cases i with
  | len =>
    obtain ⟨-, ⟨L, -, rfl⟩ | ⟨-, rfl⟩⟩ := h <;> exact .inl ⟨_, rfl⟩
  | append =>
    obtain ⟨-, ⟨L, -, -, rfl⟩ | ⟨-, rfl⟩⟩ := h
    · exact .inr (.inl ⟨rfl, _, _, rfl⟩)
    · exact .inl ⟨_, rfl⟩
  | parse | peek =>
    obtain ⟨-, ⟨v, L, -, rfl⟩ | ⟨m, -, rfl⟩⟩ := h <;> exact .inl ⟨_, rfl⟩
  | read =>
    obtain ⟨-, rfl⟩ := h
    obtain ⟨d, x, ds, he, -⟩ := readRun_frame s.src.answers s.startRead
    exact .inr (.inr (.inl ⟨rfl, d, x, ds, he⟩))
  | write =>
    obtain ⟨-, ⟨L, -, rfl⟩ | ⟨-, rfl⟩⟩ := h
    · obtain ⟨e, x, ds, he, -⟩ := writeRun_frame s.snk.beats (s.startWrite L)
      exact .inr (.inr (.inr ⟨rfl, e, x, ds, he⟩))
    · exact .inl ⟨_, rfl⟩
  | taglen => exact .inl ⟨_, h⟩
  | reservedOp7 => exact h.elim
  | vi1 | vi2 | vi4 | vi8 =>
    obtain ⟨-, rfl⟩ := h
    exact .inl ⟨_, rfl⟩

/-- Settles O47: what `exec_footprint` does not name is unchanged, and the clause of an instruction that
may change a place does not speak of it. -/
theorem instructionChangesOnlyItsOwn : Obligations.InstructionChangesOnlyItsOwn := by
  intro i s t h
  rcases exec_footprint h with ⟨d, rfl⟩ | ⟨rfl, b, d, rfl⟩ | ⟨rfl, d, x, ds, rfl⟩ | ⟨rfl, e, x, ds, rfl⟩
  · exact ⟨rfl, rfl, rfl, rfl, rfl, rfl, fun _ _ => rfl, fun _ => rfl, fun _ => ⟨rfl, rfl⟩,
      fun _ => ⟨rfl, rfl⟩⟩
  · exact ⟨rfl, rfl, rfl, rfl, rfl, rfl, fun _ _ => rfl, fun hi => absurd rfl hi, fun _ => ⟨rfl, rfl⟩,
      fun _ => ⟨rfl, rfl⟩⟩
  · exact ⟨rfl, rfl, rfl, rfl, rfl, rfl, fun hi _ => absurd rfl hi, fun _ => rfl,
      fun hi => absurd rfl hi, fun _ => ⟨rfl, rfl⟩⟩
  · exact ⟨rfl, rfl, rfl, rfl, rfl, rfl, fun _ hi => absurd rfl hi, fun _ => rfl, fun _ => ⟨rfl, rfl⟩,
      fun hi => absurd rfl hi⟩

/-! ### What the answers of a source come to

A statement here speaks of every state `t` that has the decoder's registers `d` and the source `x`: the
rest of it does not enter what the answers come to, but for the draw counter, on which the dead
registers at the end of a `READ` depend. -/

/-- The decoder's registers outside a `READ` at a draw of the free values. -/
def deadDec (n : Nat) : DecRegs where
  reading := false
  phase := .idle
  acc := Config.freeAcc n
  rem := Config.freeRem n

theorem State.idleDec_eq_deadDec (s : State) : s.idleDec = deadDec s.draws := rfl

theorem live_deadDec (n : Nat) : (deadDec n).live = State.reset.dec.live := DecRegs.live_of_idle rfl

/-- By the decoder's registers and the source alone, an answer ends the `READ` with a result, or the `READ`
goes on. -/
def EndsOrReadsOn (d : DecRegs) (x : Source) (a : PullAnswer) : Prop :=
  (∃ y r, ∀ t : State, t.dec = d → t.src = x → t.readBeat a = t.afterReads (deadDec t.draws) y [r]) ∨
  (∃ d' y, ∀ t : State, t.dec = d → t.src = x → t.readBeat a = t.afterReads d' y [])

theorem endsOrReadsOn_of_byte {d : DecRegs} {a : PullAnswer} (acc : BitVec 62) (rem : BitVec 3) (x : Source)
    (h : ∀ t : State, t.dec = d → t.readBeat a = t.afterByte acc rem) : EndsOrReadsOn d x a := by
  by_cases h0 : rem = 0
  · refine .inl ⟨{ x with taken := x.taken + 1 }, Delivery.okValue acc, ?_⟩
    rintro t hd rfl
    rw [h t hd, h0, State.afterByte_zero, State.idleDec_eq_deadDec]
    rfl
  · refine .inr ⟨{ d with phase := .body, acc := acc, rem := rem },
      { x with taken := x.taken + 1, pulls := x.pulls + 1 }, ?_⟩
    rintro t rfl rfl
    rw [h t rfl, State.afterByte, if_neg h0, State.afterReads, List.append_nil]
    rfl

theorem endsOrReadsOn_of_failure {d : DecRegs} {a : PullAnswer} (k : Status) (x : Source)
    (h : ∀ t : State, t.dec = d → t.readBeat a = t.endRead.raise .dec k) : EndsOrReadsOn d x a := by
  refine .inl ⟨x, .dec k none none, ?_⟩
  rintro t hd rfl
  rw [h t hd, State.endRead, State.idleDec_eq_deadDec]
  rfl

theorem endsOrReadsOn (d : DecRegs) (x : Source) (a : PullAnswer) : EndsOrReadsOn d x a := by
  cases hp : d.phase with
  | idle =>
    cases a with
    | byte b =>
      exact endsOrReadsOn_of_byte (accStart b) (BitVec.ofNat 3 (taglen b - 1)) x fun t hd => by
        simp only [State.readBeat, hd, hp]
    | exhausted =>
      exact endsOrReadsOn_of_failure .endOfStream x fun t hd => by
        simp only [State.readBeat, hd, hp]
    | fail k =>
      exact endsOrReadsOn_of_failure (.io k) x fun t hd => by
        simp only [State.readBeat, hd, hp]
  | body =>
    cases a with
    | byte b =>
      exact endsOrReadsOn_of_byte (accNext d.acc b) (d.rem - 1) x fun t hd => by
        simp only [State.readBeat, hd, hp]
    | exhausted =>
      exact endsOrReadsOn_of_failure .truncated x fun t hd => by
        simp only [State.readBeat, hd, hp]
    | fail k =>
      exact endsOrReadsOn_of_failure (.io k) x fun t hd => by
        simp only [State.readBeat, hd, hp]

/-- What answers come to is told by the decoder's registers and the source, but for dead registers. -/
theorem readRun_eq_afterReads (as : List PullAnswer) (d : DecRegs) (x : Source) :
    ∃ (f : Nat → DecRegs) (y : Source) (ds : List Delivery), (∀ m n, (f m).live = (f n).live) ∧
      ∀ t : State, t.dec = d → t.src = x → readRun as t = t.afterReads (f t.draws) y ds := by
  induction as generalizing d x with
  | nil =>
    refine ⟨fun _ => d, { x with answers := [] }, [], fun _ _ => rfl, ?_⟩
    rintro t rfl rfl
    exact t.withSrc_eq_afterReads _
  | cons a as ih =>
    cases hr : d.reading with
    | false =>
      refine ⟨fun _ => d, { x with answers := a :: as }, [], fun _ _ => rfl, ?_⟩
      rintro t rfl rfl
      rw [readRun_idle _ hr, State.withSrc_eq_afterReads]
    | true =>
      rcases endsOrReadsOn d x a with ⟨y, r, hbeat⟩ | ⟨d', y, hbeat⟩
      · refine ⟨deadDec, { y with answers := as }, [r], fun m n => by rw [live_deadDec, live_deadDec], ?_⟩
        intro t hd hx
        rw [readRun_cons_busy a as (hd ▸ hr), hbeat t hd hx, readRun_idle _ rfl]
        rfl
      · obtain ⟨f, z, ds, hlive, hrun⟩ := ih d' y
        refine ⟨f, z, ds, hlive, fun t hd hx => ?_⟩
        rw [readRun_cons_busy a as (hd ▸ hr), hbeat t hd hx, hrun _ rfl rfl]
        simp [State.afterReads]

/-! ### What the beats of a sink come to

As above, of every state `t` that has the encoder's registers `e` and the sink `x`. -/

/-- The encoder's registers outside a `WRITE` at a draw of the free values. -/
def deadEnc (n : Nat) : EncRegs where
  phase := .idle
  hold := Config.freeHold n
  len := Config.freeLen n
  idx := (Config.freeIdx n).val

theorem State.idleEnc_eq_deadEnc (s : State) : s.idleEnc = deadEnc s.draws := rfl

theorem live_deadEnc (n : Nat) : (deadEnc n).live = State.reset.enc.live := EncRegs.live_of_idle rfl

/-- A beat ends the `WRITE` with a result, or goes on with it, by the encoder's registers and the sink
alone. -/
theorem writeBeat_ends_or_goes_on (e : EncRegs) (x : Sink) (b : SinkBeat) :
    (∃ y r, ∀ t : State, t.enc = e → t.snk = x → t.writeBeat b = t.afterWrites (deadEnc t.draws) y [r]) ∨
    (∃ e' y, ∀ t : State, t.enc = e → t.snk = x → t.writeBeat b = t.afterWrites e' y []) := by
  cases ha : b.answer with
  | ok =>
    by_cases hl : e.idx + 1 = e.len.toNat
    · refine .inl ⟨{ x with contents := x.contents ++ [e.byteAt e.idx] }, Delivery.okDone, ?_⟩
      rintro t rfl rfl
      simp only [State.writeBeat, ha, if_pos hl]
      rfl
    · refine .inr ⟨{ e with idx := e.idx + 1 },
        { x with contents := x.contents ++ [e.byteAt e.idx],
                 offered := x.offered ++ [e.byteAt (e.idx + 1)] }, ?_⟩
      rintro t rfl rfl
      simp only [State.writeBeat, ha, if_neg hl, State.afterWrites, List.append_nil]
      rfl
  | fail k =>
    refine .inl ⟨{ x with contents := x.contents ++ b.has (e.byteAt e.idx) }, .enc (.io k) none, ?_⟩
    rintro t rfl rfl
    rcases t.writeBeat_cases b with ⟨hok, -⟩ | ⟨hok, -⟩ | ⟨k', hk, he⟩
    · exact absurd (ha.symm.trans hok) nofun
    · exact absurd (ha.symm.trans hok) nofun
    · cases ha.symm.trans hk
      rw [he, State.idleEnc_eq_deadEnc]
      rfl

/-- What a sink's beats come to is told by the encoder's registers and the sink, but for dead
registers. -/
theorem writeRun_eq_afterWrites (bs : List SinkBeat) (e : EncRegs) (x : Sink) :
    ∃ (f : Nat → EncRegs) (y : Sink) (es : List Delivery), (∀ m n, (f m).live = (f n).live) ∧
      ∀ t : State, t.enc = e → t.snk = x → writeRun bs t = t.afterWrites (f t.draws) y es := by
  induction bs generalizing e x with
  | nil =>
    refine ⟨fun _ => e, { x with beats := [] }, [], fun _ _ => rfl, ?_⟩
    rintro t rfl rfl
    exact t.withSnk_eq_afterWrites _
  | cons b bs ih =>
    cases hp : e.phase with
    | idle =>
      refine ⟨fun _ => e, { x with beats := b :: bs }, [], fun _ _ => rfl, ?_⟩
      rintro t rfl rfl
      rw [writeRun_idle _ hp, State.withSnk_eq_afterWrites]
    | pushing =>
      rcases writeBeat_ends_or_goes_on e x b with ⟨y, r, hbeat⟩ | ⟨e', y, hbeat⟩
      · refine ⟨deadEnc, { y with beats := bs }, [r], fun m n => by rw [live_deadEnc, live_deadEnc], ?_⟩
        intro t he hx
        rw [writeRun_cons_busy b bs (he ▸ hp), hbeat t he hx, writeRun_idle _ rfl]
        rfl
      · obtain ⟨f, z, es, hlive, hrun⟩ := ih e' y
        refine ⟨f, z, es, hlive, fun t he hx => ?_⟩
        rw [writeRun_cons_busy b bs (he ▸ hp), hbeat t he hx, hrun _ rfl rfl]
        simp [State.afterWrites]

/-- Settles O45: the value port is no part of what a sink's answer is told by. -/
theorem writeInFlightHasSampledItsValue : Obligations.WriteInFlightHasSampledItsValue := by
  intro s v b _
  obtain ⟨f, y, es, -, hrun⟩ := writeRun_eq_afterWrites (s.snk.beats ++ [b]) s.enc s.snk
  calc (s.withVPort v).snkAnswer b
      = (s.withVPort v).afterWrites (f s.draws) y es := hrun (s.withVPort v) rfl rfl
    _ = (s.afterWrites (f s.draws) y es).withVPort v := rfl
    _ = (s.snkAnswer b).withVPort v := by rw [State.snkAnswer, hrun s rfl rfl]

/-! ### An answer of the source and one of the sink -/

/-- What the source's answer comes to is beside what the sink's comes to. -/
theorem live_afterReads_afterWrites (s : State) {d d' : DecRegs} {e e' : EncRegs} (hd : d.live = d'.live)
    (he : e.live = e'.live) (x : Source) (y : Sink) (ds es : List Delivery) :
    { ((s.afterReads d x ds).afterWrites e y es).live with delivered := [] } =
      { ((s.afterWrites e' y es).afterReads d' x ds).live with delivered := [] } := by
  simp [State.live, State.afterReads, State.afterWrites, hd, he, Nat.add_right_comm]

/-- Settles O59: neither answer changes the registers and the stream that tell what the other comes to; only
the draw counter, on which dead registers depend. -/
theorem sourceAndSinkAnswersCommute : Obligations.SourceAndSinkAnswersCommute := by
  intro s a b
  obtain ⟨f, x, ds, hlive, hread⟩ := readRun_eq_afterReads (s.src.answers ++ [a]) s.dec s.src
  obtain ⟨g, y, es, hlive', hwrite⟩ := writeRun_eq_afterWrites (s.snk.beats ++ [b]) s.enc s.snk
  have hsrc : s.srcAnswer a = s.afterReads (f s.draws) x ds := hread s rfl rfl
  have hsnk : s.snkAnswer b = s.afterWrites (g s.draws) y es := hwrite s rfl rfl
  have hsrcFirst : (s.srcAnswer a).snkAnswer b = (s.afterReads (f s.draws) x ds).afterWrites
      (g (s.draws + ds.length)) y es := by rw [hsrc]; exact hwrite _ rfl rfl
  have hsnkFirst : (s.snkAnswer b).srcAnswer a = (s.afterWrites (g s.draws) y es).afterReads
      (f (s.draws + es.length)) x ds := by rw [hsnk]; exact hread _ rfl rfl
  rw [hsrcFirst, hsnkFirst]
  exact ⟨ds, es, rfl, rfl, live_afterReads_afterWrites s (hlive _ _) (hlive' _ _) x y ds es⟩

end Sys2Proof.Machine
end

section
/-! The wire format as an encoding of instructions (R50, R52, R53, R57, R60): a slice decodes to a Value
and a length exactly when it begins with that form of the Value, so that the decoder of a slot and the
encoder of an instruction undo each other. -/

namespace Sys2Proof.Machine

/-! ### Whole encodings -/

theorem mem_lengths {L : Nat} : L ∈ lengths ↔ L = 1 ∨ L = 2 ∨ L = 4 ∨ L = 8 := by simp [lengths]

/-- A Value on the encoder's wider port is the same number (R12). -/
theorem toNat_setWidth_vIn (w : Value) : (w.setWidth 64 : VIn).toNat = w.toNat :=
  BitVec.toNat_setWidth_of_le (by norm_num)

/-- The length code of a declared length is the tag (R81, R90). -/
theorem codeOf_taglen (b : Byte) : codeOf (taglen b) = b.toNat / 64 := by
  have hb := b.isLt
  rcases taglen_cases b with ⟨_, h⟩ | ⟨_, _, h⟩ | ⟨_, _, h⟩ | ⟨_, h⟩ <;> rw [h, codeOf] <;> omega

/-- A whole encoding spells its tag above its payload (R52). -/
theorem bigNat_whole {b0 : Byte} {body : List Byte} (h : body.length + 1 = taglen b0) :
    bigNat (b0 :: body) = codeOf (taglen b0) * 2 ^ (8 * taglen b0 - 2) + (accumulate b0 body).toNat := by
  have hle := taglen_le b0
  have hbits : 8 * taglen b0 - 2 = 6 + 8 * body.length := by omega
  rw [accumulate_toNat _ _ (by omega), bigNat_payload, bigNat_cons, codeOf_taglen, hbits, pow_add, pow_mul]
  conv_lhs => rw [← Nat.div_add_mod b0.toNat 64]
  ring

/-- A whole encoding is the form of its length of the Value it accumulates to (R52, R100). -/
theorem whole_eq_encBytes {b0 : Byte} {body : List Byte} (h : body.length + 1 = taglen b0) :
    b0 :: body = encBytes (taglen b0) ((accumulate b0 body).setWidth 64) := by
  have hrange : (accumulate b0 body).toNat < 2 ^ payloadBits (taglen b0) := by
    rw [← h, accumulate_toNat _ _ (by have := taglen_le b0; omega)]
    exact Nat.mod_lt _ (by positivity)
  refine bigNat_inj (by simp [h]) ?_
  rw [bigNat_whole h, bigNat_encBytes (mem_lengths.1 (taglen_mem_lengths b0)) (by rwa [toNat_setWidth_vIn]),
    toNat_setWidth_vIn]

/-- A form wide enough for its Value is a whole encoding, which its first byte declares (R53). -/
theorem encBytes_eq_whole {L : Nat} {w : Value} (hL : L ∈ lengths) (hw : w.toNat < 2 ^ payloadBits L) :
    ∃ b0 body, encBytes L (w.setWidth 64) = b0 :: body ∧ taglen b0 = L ∧
      body.length + 1 = taglen b0 := by
  have htag := Laws.SlotWidth.taglen_encBytes (mem_lengths.1 hL) hw
  have hpos : L ≠ 0 := by rintro rfl; exact absurd hL (by decide)
  obtain ⟨n, rfl⟩ := Nat.exists_eq_succ_of_ne_zero hpos
  refine ⟨_, (List.range n).map fun i => encByte (n + 1) (w.setWidth 64) (i + 1), ?_, htag,
    by rw [htag]; simp⟩
  simp [encBytes, List.range_succ_eq_map, Function.comp_def]

/-- The Value that a whole encoding accumulates to, from the form it is. -/
theorem accumulate_encBytes {L : Nat} {w : Value} {b0 : Byte} {body : List Byte} (hL : L ∈ lengths)
    (hw : w.toNat < 2 ^ payloadBits L) (he : encBytes L (w.setWidth 64) = b0 :: body)
    (htag : taglen b0 = L) (hlen : body.length + 1 = taglen b0) : accumulate b0 body = w := by
  have hform := bigNat_encBytes (mem_lengths.1 hL) (v := w.setWidth 64) (by rwa [toNat_setWidth_vIn])
  rw [he, bigNat_whole hlen, htag, toNat_setWidth_vIn] at hform
  exact BitVec.eq_of_toNat_eq (Nat.add_left_cancel hform)

theorem decOf_whole {b0 : Byte} {body : List Byte} (h : body.length + 1 = taglen b0) (tail : List Byte) :
    decOf (b0 :: (body ++ tail)) = .ok (accumulate b0 body, taglen b0) := by
  have htake : (body ++ tail).take (taglen b0 - 1) = body := List.take_left' (by omega)
  rw [decOf, if_neg (by rw [List.length_append]; omega), htake]

/-- A slice decodes to a Value and a length exactly when it begins with the form of that length of the
Value, which holds it (R57, R58): the canonical form or a wider one. -/
theorem decOf_eq_ok_iff {bs : List Byte} {w : Value} {L : Nat} :
    decOf bs = .ok (w, L) ↔
      L ∈ lengths ∧ w.toNat < 2 ^ payloadBits L ∧ ∃ tail, bs = encBytes L (w.setWidth 64) ++ tail := by
  constructor
  · intro h
    obtain ⟨hL, hw⟩ := decOf_ok_range h
    refine ⟨hL, hw, ?_⟩
    obtain ⟨b0, r, rfl, rfl, hlen⟩ := decOf_ok_cons h
    obtain ⟨body, tail, rfl, hbody⟩ : ∃ body tail, r = body ++ tail ∧ body.length + 1 = taglen b0 :=
      ⟨_, _, (List.take_append_drop (taglen b0 - 1) r).symm, by
        rw [List.length_take]; have := taglen_pos b0; omega⟩
    obtain rfl : accumulate b0 body = w := by simpa [decOf_whole hbody] using h
    exact ⟨tail, by rw [← whole_eq_encBytes hbody, List.cons_append]⟩
  · rintro ⟨hL, hw, tail, rfl⟩
    obtain ⟨b0, body, he, htag, hlen⟩ := encBytes_eq_whole hL hw
    rw [he, List.cons_append, decOf_whole hlen, accumulate_encBytes hL hw he htag hlen, htag]

theorem lenOf_payload {v : VIn} {L : Nat} (h : lenOf v = some L) : v.toNat < 2 ^ payloadBits L := by
  rcases lenOf_cases h with ⟨rfl, hv⟩ | ⟨rfl, -, hv⟩ | ⟨rfl, -, hv⟩ | ⟨rfl, -, hv⟩ <;> exact hv

theorem lenOf_value_isSome (w : Value) : (lenOf (w.setWidth 64)).isSome = true := by
  rw [Option.isSome_iff_ne_none, Ne, lenOf_eq_none, toNat_setWidth_vIn]
  exact Nat.not_le.2 w.isLt

/-- Settles O3. -/
theorem encodingIsBigEndianWord : Obligations.EncodingIsBigEndianWord := by
  intro v L h
  rw [encOf_eq h]
  exact ⟨length_encBytes L v, bigNat_encBytes (mem_lengths.1 (lenOf_mem_lengths h)) (lenOf_payload h)⟩

/-- Settles O6: a slice of the length of the form it begins with is that form. -/
theorem everyWideEnoughFormDecodes : Obligations.EveryWideEnoughFormDecodes := by
  intro w L bs hL hlen
  rw [decOf_eq_ok_iff]
  constructor
  · rintro ⟨-, hw, tail, rfl⟩
    have htail : tail = [] := by simpa using hlen
    exact ⟨hw, by rw [htail, List.append_nil]⟩
  · rintro ⟨hw, rfl⟩
    exact ⟨hL, hw, [], (List.append_nil _).symm⟩

/-- Settles O9. -/
theorem decodedValueIsInRange : Obligations.DecodedValueIsInRange := by
  intro bs w L h
  obtain ⟨hL, hw, tail, rfl⟩ := decOf_eq_ok_iff.1 h
  exact ⟨hL, by simp, hw, lenOf_value_isSome w⟩

/-! ### Instructions and slots -/

theorem decode_encoding_of_ok {bs : List Byte} {v : Value} {L : Nat} (h : decOf bs = .ok (v, L)) :
    decode (.encoding bs) = .ok (wireForm L v) := by
  simp only [decode, h]

theorem decode_encoding_ok {bs : List Byte} {i : Instr} (h : decode (.encoding bs) = .ok i) :
    ∃ v L, decOf bs = .ok (v, L) ∧ i = wireForm L v := by
  cases hd : decOf bs with
  | error m => simp [decode, hd] at h
  | ok r => exact ⟨r.1, r.2, rfl, by simpa [decode, hd] using h.symm⟩

theorem encode_wireForm {L : Nat} (hL : L ∈ lengths) (v : Value) :
    encode (wireForm L v) = .encoding (encBytes L (v.setWidth 64)) := by
  rcases mem_lengths.1 hL with rfl | rfl | rfl | rfl <;> rfl

theorem decode_encode_wireForm {L : Nat} {v : Value} (hL : L ∈ lengths)
    (hv : v.toNat < 2 ^ payloadBits L) : decode (encode (wireForm L v)) = .ok (wireForm L v) := by
  rw [encode_wireForm hL]
  exact decode_encoding_of_ok (decOf_eq_ok_iff.2 ⟨hL, hv, [], (List.append_nil _).symm⟩)

/-- Settles O12: an operation's code is decoded at the unit that owns it, a form's bytes by
`decode_encode_wireForm`. -/
theorem decodeOfEncodeIsInstruction : Obligations.DecodeOfEncodeIsInstruction := by
  intro i hwf
  cases i with
  | vi1 v => exact decode_encode_wireForm (L := 1) (by decide) (of_decide_eq_true hwf)
  | vi2 v => exact decode_encode_wireForm (L := 2) (by decide) (of_decide_eq_true hwf)
  | vi4 v => exact decode_encode_wireForm (L := 4) (by decide) (of_decide_eq_true hwf)
  | vi8 v => exact decode_encode_wireForm (L := 8) (by decide) (of_decide_eq_true hwf)
  | _ => rfl

theorem decode_command_ok {u : CodecUnit} {op : BitVec 3} {i : Instr}
    (h : decode (.command u op) = .ok i) : i = decodeOp op ∧ (i.unit = some u ∨ i.unit = none) := by
  rw [decode] at h
  split at h
  · next howned => cases h; exact ⟨rfl, howned⟩
  · cases h

theorem decode_command_notOwned {u w : CodecUnit} {op : BitVec 3} (h : (decodeOp op).unit = some w)
    (hne : w ≠ u) : decode (.command u op) = .error .notOwned := by
  simp [decode, h, hne]

theorem unit_eq_none_iff {i : Instr} : i.unit = none ↔ i = .reservedOp7 := by
  cases i <;> simp [Instr.unit]

/-- The encoder writes the code it was decoded from, at the unit that owns it (R60). -/
theorem encode_decodeOp (op : BitVec 3) :
    encode (decodeOp op) = .command ((decodeOp op).unit.getD .enc) op := by
  revert op; decide

/-- Settles O13: a form by `decOf_eq_ok_iff`, a code by `encode_decodeOp`. -/
theorem encodeOfDecodeIsSlot : Obligations.EncodeOfDecodeIsSlot := by
  refine ⟨fun bs i h => ⟨decode_wf h, ?form⟩, fun u op i h => ⟨decode_wf h, ?code⟩⟩
  case form =>
    obtain ⟨v, L, hd, rfl⟩ := decode_encoding_ok h
    obtain ⟨hL, -, tail, hbs⟩ := decOf_eq_ok_iff.1 hd
    exact ⟨_, tail, encode_wireForm hL v, hbs⟩
  case code =>
    obtain ⟨rfl, howned⟩ := decode_command_ok h
    exact ⟨howned.imp_right unit_eq_none_iff.1, _, encode_decodeOp op⟩

/-- The form that a first byte declares, by the range of the byte (R50, R56). -/
theorem wireForm_taglen (b0 : Byte) (w : Value) :
    wireForm (taglen b0) w = if b0.toNat < 64 then .vi1 w else if b0.toNat < 128 then .vi2 w
      else if b0.toNat < 192 then .vi4 w else .vi8 w := by
  rcases taglen_cases b0 with ⟨h1, h⟩ | ⟨h1, h2, h⟩ | ⟨h1, h2, h⟩ | ⟨h1, h⟩ <;> rw [h]
  · rw [if_pos h1]; rfl
  · rw [if_neg (by omega), if_pos h2]; rfl
  · rw [if_neg (by omega), if_neg (by omega), if_pos h2]; rfl
  · rw [if_neg (by omega), if_neg (by omega), if_neg (by omega)]; rfl

/-- Settles O14. -/
theorem encodingSlotDecodesToForm : Obligations.EncodingSlotDecodesToForm := by
  intro b0 body tail h
  rw [← taglen_eq] at h
  refine ⟨accumulate b0 body, accumulate_toNat b0 body (by have := taglen_le b0; omega), ?_⟩
  rw [decode_encoding_of_ok (decOf_whole h tail), wireForm_taglen]

/-- Settles O15. -/
theorem sampleWordsDecode : Obligations.SampleWordsDecode :=
  ⟨rfl, rfl, rfl, rfl, rfl, rfl, rfl, rfl⟩

/-! ### Running what is presented -/

theorem step_cons {s : State} {e : Event} {es : List Event} (h : s.inbox = e :: es) :
    step s = (s.withInbox es).take e := by
  rw [step, h]

theorem take_present_ok {slot : Slot} {i : Instr} (h : decode slot = .ok i) (s : State) :
    s.take (.present slot) = exec i s := by
  simp only [State.take, h]

theorem take_present_error {slot : Slot} {r : Reject} (h : decode slot = .error r) (s : State) :
    s.take (.present slot) = rejectSlot r s := by
  simp only [State.take, h]

/-- Settles O16. -/
theorem stepRunsDecodedInstruction : Obligations.StepRunsDecodedInstruction := by
  intro s slot i es hinbox hd
  rw [step_cons hinbox, take_present_ok hd]

/-- Settles O51: a code that another unit owns decodes to no instruction, and the slot is rejected. -/
theorem reservedAndMisdirectedCodesAreRefused : Obligations.ReservedAndMisdirectedCodesAreRefused := by
  refine ⟨fun _ => rfl, fun s u w op es hinbox hunit hne => ?_⟩
  rw [step_cons hinbox, take_present_error (decode_command_notOwned hunit hne)]
  rfl

/-! ### What the decoder delivers of a slice and of a form -/

theorem exec_parse_idle {s : State} (hr : s.dec.reading = false) :
    exec .parse s = s.decodeSlice Delivery.okParse := by
  rw [exec, execParse, State.atDec_idle hr]

theorem exec_peek_idle {s : State} (hr : s.dec.reading = false) :
    exec .peek s = s.decodeSlice fun v _ => Delivery.okValue v := by
  rw [exec, execPeek, State.atDec_idle hr]

theorem State.decodeSlice_of_ok {s : State} {v : Value} {L : Nat} (h : decOf s.sliceBytes = .ok (v, L))
    (out : Value → Nat → Delivery) : s.decodeSlice out = .next (s.deliver (out v L)) := by
  simp only [State.decodeSlice, h]

theorem State.decodeSlice_of_error {s : State} {m : Missing} (h : decOf s.sliceBytes = .error m)
    (out : Value → Nat → Delivery) :
    s.decodeSlice out = .next (s.deliver (.dec (missingStatus m) none none)) := by
  simp only [State.decodeSlice, h, State.raise_dec]

theorem missingStatus_cases (m : Missing) :
    missingStatus m = .endOfStream ∨ missingStatus m = .truncated := by
  cases m with
  | noBytes => exact .inl rfl
  | shortBytes => exact .inr rfl

/-- Settles O24: both deliver what the one slice decodes to. -/
theorem peekIsParseWithoutCount : Obligations.PeekIsParseWithoutCount := by
  intro s hr
  rw [exec_parse_idle hr, exec_peek_idle hr]
  cases h : decOf s.sliceBytes with
  | ok r => exact .inl ⟨r.1, _, State.decodeSlice_of_ok h _, State.decodeSlice_of_ok h _⟩
  | error m =>
    exact .inr ⟨_, missingStatus_cases m, State.decodeSlice_of_error h _, State.decodeSlice_of_error h _⟩

theorem State.takeForm_idle {s : State} (hr : s.dec.reading = false) (L : Nat) (v : Value) :
    s.takeForm L v = .next (s.deliver (.dec .ok (some v) (some (lenPort L)))) := by
  rw [State.takeForm, State.atDec_idle hr]; rfl

/-- Settles O29. -/
theorem wireFormsDeliverTheirValue : Obligations.WireFormsDeliverTheirValue :=
  fun _ v hr => ⟨State.takeForm_idle hr 1 v, State.takeForm_idle hr 2 v, State.takeForm_idle hr 4 v,
    State.takeForm_idle hr 8 v⟩

end Sys2Proof.Machine
end

section
/-! The encoded length (R70, R71, R72, R141): it is the least form whose payload holds the value, the
ranges of a value determine it, and `LEN` delivers it. -/

namespace Sys2Proof.Machine

/-! ### The least length -/

theorem payloadBits_le_of_mem_lengths {L : Nat} (h : L ∈ lengths) : payloadBits L ≤ 62 := by
  rcases mem_lengths.1 h with rfl | rfl | rfl | rfl <;> decide

theorem exists_lenOf_of_payload {v : VIn} {L : Nat} (hL : L ∈ lengths) (hv : v.toNat < 2 ^ payloadBits L) :
    ∃ K, lenOf v = some K := by
  have hdomain : v.toNat < 2 ^ 62 :=
    hv.trans_le (Nat.pow_le_pow_right (by decide) (payloadBits_le_of_mem_lengths hL))
  exact Option.ne_none_iff_exists'.1 fun hnone => hdomain.not_ge (lenOf_eq_none.1 hnone)

theorem lenOf_le_of_payload {v : VIn} {L M : Nat} (h : lenOf v = some L) (hM : M ∈ lengths)
    (hv : v.toNat < 2 ^ payloadBits M) : L ≤ M := by
  have hrange := lenOf_cases h
  rcases mem_lengths.1 hM with rfl | rfl | rfl | rfl <;> simp only [payloadBits] at hv <;> omega

/-- Settles O1: two lengths, each the least that holds the value, are one. -/
theorem encodedLengthIsLeast : Obligations.EncodedLengthIsLeast := by
  intro v L
  constructor
  · intro h
    exact ⟨lenOf_mem_lengths h, lenOf_payload h, fun _ => lenOf_le_of_payload h⟩
  · rintro ⟨hL, hv, hleast⟩
    obtain ⟨K, hK⟩ := exists_lenOf_of_payload hL hv
    have hKL : K ≤ L := lenOf_le_of_payload hK hL hv
    have hLK : L ≤ K := hleast K (lenOf_mem_lengths hK) (lenOf_payload hK)
    rw [hK, le_antisymm hKL hLK]

/-! ### `LEN` -/

/-- The converse of `lenOf_cases`. -/
theorem lenOf_eq_some_of_range {v : VIn} {L : Nat}
    (h : (L = 1 ∧ v.toNat < 2 ^ 6) ∨ (L = 2 ∧ 2 ^ 6 ≤ v.toNat ∧ v.toNat < 2 ^ 14) ∨
      (L = 4 ∧ 2 ^ 14 ≤ v.toNat ∧ v.toNat < 2 ^ 30) ∨ (L = 8 ∧ 2 ^ 30 ≤ v.toNat ∧ v.toNat < 2 ^ 62)) :
    lenOf v = some L := by
  cases hK : lenOf v with
  | none => have := lenOf_eq_none.1 hK; omega
  | some K => have := lenOf_cases hK; congr 1; omega

theorem exec_len_of_lenOf {s : State} {L : Nat} (hp : s.enc.phase = .idle) (h : lenOf s.vPort = some L) :
    exec .len s = .next (s.deliver (.enc .ok (some (lenPort L)))) := by
  simp only [exec, execLen, State.atEnc_idle hp, h, Delivery.okLen]

theorem exec_len_outOfRange {s : State} (hp : s.enc.phase = .idle) (h : lenOf s.vPort = none) :
    exec .len s = .next (s.deliver (.enc .outOfRange none)) := by
  simp only [exec, execLen, State.atEnc_idle hp, h, State.raise_enc]

/-- Settles O17: the range of the value fixes the length that `LEN` delivers. -/
theorem lenDeliversLengthOrOutOfRange : Obligations.LenDeliversLengthOrOutOfRange := by
  intro s hp
  refine ⟨fun h => ?one, fun h => ?two, fun h => ?four, fun h => ?eight, fun h => ?outOfRange⟩
  case one => exact exec_len_of_lenOf (L := 1) hp (lenOf_eq_some_of_range (by omega))
  case two => exact exec_len_of_lenOf (L := 2) hp (lenOf_eq_some_of_range (by omega))
  case four => exact exec_len_of_lenOf (L := 4) hp (lenOf_eq_some_of_range (by omega))
  case eight => exact exec_len_of_lenOf (L := 8) hp (lenOf_eq_some_of_range (by omega))
  case outOfRange => exact exec_len_outOfRange hp (lenOf_eq_none.2 h)

end Sys2Proof.Machine
end

section
/-! The canonical encoding byte by byte (R52, R59, R81), and `APPEND`, which leaves it behind the old bytes
of the buffer (R36, R37, R80, R82). -/

namespace Sys2Proof.Machine

/-! ### The bytes of each form -/

theorem encBytes_one (v : VIn) : encBytes 1 v = [v.setWidth 8] := by
  simp [encBytes, List.range_succ, encByte, codeOf]

theorem encBytes_two (v : VIn) : encBytes 2 v = [0x40#8 ||| (v >>> 8).setWidth 8, v.setWidth 8] := by
  simp [encBytes, List.range_succ, encByte, codeOf]

theorem encBytes_four (v : VIn) :
    encBytes 4 v = [0x80#8 ||| (v >>> 24).setWidth 8, (v >>> 16).setWidth 8, (v >>> 8).setWidth 8,
      v.setWidth 8] := by
  simp [encBytes, List.range_succ, encByte, codeOf]

theorem encBytes_eight (v : VIn) :
    encBytes 8 v = [0xC0#8 ||| (v >>> 56).setWidth 8, (v >>> 48).setWidth 8, (v >>> 40).setWidth 8,
      (v >>> 32).setWidth 8, (v >>> 24).setWidth 8, (v >>> 16).setWidth 8, (v >>> 8).setWidth 8,
      v.setWidth 8] := by
  simp [encBytes, List.range_succ, encByte, codeOf]

theorem encOf_eq_nil {v : VIn} (h : lenOf v = none) : encOf v = [] := by
  rw [encOf, h]

theorem length_encOf {v : VIn} {L : Nat} (h : lenOf v = some L) : (encOf v).length = L := by
  rw [encOf_eq h, length_encBytes]

/-- Settles O2: the range of the value fixes the form. -/
theorem encodingBytesByForm : Obligations.EncodingBytesByForm := by
  intro v
  refine ⟨fun h => ?one, fun h => ?two, fun h => ?four, fun h => ?eight, fun h => ?outOfRange⟩
  case one => rw [encOf_eq (L := 1) (lenOf_eq_some_of_range (by omega)), encBytes_one]
  case two => rw [encOf_eq (L := 2) (lenOf_eq_some_of_range (by omega)), encBytes_two]
  case four => rw [encOf_eq (L := 4) (lenOf_eq_some_of_range (by omega)), encBytes_four]
  case eight => rw [encOf_eq (L := 8) (lenOf_eq_some_of_range (by omega)), encBytes_eight]
  case outOfRange => exact encOf_eq_nil (lenOf_eq_none.2 h)

/-! ### What an append leaves in a space -/

theorem Space.read_append_old (sp : Space) (bs : List Byte) {i : Nat} (h : i < sp.len) :
    (sp.append bs).read i = sp.read i := by
  rw [← Space.bytes_get, Space.bytes_append, List.getElem?_append_left (by simpa using h), Space.bytes_get]

theorem Space.read_append_new (sp : Space) (bs : List Byte) (i : Nat) :
    (sp.append bs).read (sp.len + i) = bs[i]? := by
  rw [← Space.bytes_get, Space.bytes_append, List.getElem?_append_right (by simp)]
  simp

theorem Space.read_of_len_le {sp : Space} {i : Nat} (h : sp.len ≤ i) : sp.read i = none :=
  if_neg h.not_gt

/-- An append changes what is read at the indices of the new bytes only (R36). -/
theorem Space.read_append_outside (sp : Space) (bs : List Byte) {i : Nat}
    (h : i < sp.len ∨ sp.len + bs.length ≤ i) : (sp.append bs).read i = sp.read i := by
  rcases h with hold | hpast
  · exact Space.read_append_old sp bs hold
  · rw [Space.read_of_len_le (sp := sp.append bs) hpast, Space.read_of_len_le (by omega)]

/-! ### `APPEND` -/

theorem Buffer.hasRoom_iff {d : Buffer} {n : Nat} :
    d.hasRoom n = true ↔ ∀ c, d.cap = some c → d.space.len + n ≤ c := by
  cases hc : d.cap with
  | none => simp [Buffer.hasRoom, hc]
  | some c => simp [Buffer.hasRoom_of_cap hc]

theorem exec_append_of_room {s : State} {L : Nat} (hp : s.enc.phase = .idle) (h : lenOf s.vPort = some L)
    (hroom : s.dst.hasRoom L = true) :
    exec .append s = .next ((s.withDst { s.dst with space := s.dst.space.append (encOf s.vPort) }).deliver
      (.enc .ok none)) := by
  simp only [exec, execAppend, State.atEnc_idle hp, h, hroom, if_true, Delivery.okDone]

theorem exec_append_outOfRange {s : State} (hp : s.enc.phase = .idle) (h : lenOf s.vPort = none) :
    exec .append s = .next (s.deliver (.enc .outOfRange none)) := by
  simp only [exec, execAppend, State.atEnc_idle hp, h, State.raise_enc]

/-- Settles O19: the buffer's space after `APPEND` is the old one with the encoding appended. -/
theorem appendWritesCanonicalEncoding : Obligations.AppendWritesCanonicalEncoding := by
  intro s L hp hL hcap
  have hlen : (encOf s.vPort).length = L := length_encOf hL
  refine ⟨s.dst.space.append (encOf s.vPort), exec_append_of_room hp hL (Buffer.hasRoom_iff.2 hcap), ?len,
    Space.bytes_append _ _, fun i _ => Space.read_append_new _ _ i, fun i hi => ?outside⟩
  case len => rw [Space.append_len, hlen]
  case outside => exact Space.read_append_outside _ _ (by rwa [hlen])

/-- Settles O20: the range check comes before the check for room. -/
theorem appendOutOfRangeTouchesNothing : Obligations.AppendOutOfRangeTouchesNothing :=
  fun _ hp h => exec_append_outOfRange hp (lenOf_eq_none.2 h)

end Sys2Proof.Machine
end

section
/-! The length tag (R51, R90, R91): the extractor delivers tag and declared length by the range of the byte
on its port, and the first byte of a canonical encoding declares the encoded length. -/

namespace Sys2Proof.Machine

/-! ### `TAGLEN` -/

/-- What `TAGLEN` delivers, by the tag: bits 7:6 of the byte, hence its quotient by 64 (R90). -/
theorem exec_taglen_of_tag {s : State} {t : BitVec 2} (h : s.b0Port.toNat / 64 = t.toNat) :
    exec .taglen s = .next (s.deliver (.lte t (lenPort (2 ^ t.toNat)))) := by
  have htag : tagOf s.b0Port = t := BitVec.eq_of_toNat_eq (by rw [tagOf_toNat, h])
  simp only [exec, execTaglen, taglen_eq, htag, h]

/-- Settles O18: the four ranges of the byte are the four values of its tag. -/
theorem taglenDeliversTagAndLength : Obligations.TaglenDeliversTagAndLength := by
  intro s
  have hbyte := s.b0Port.isLt
  refine ⟨fun h => exec_taglen_of_tag (t := 0) ?one, fun h => exec_taglen_of_tag (t := 1) ?two,
    fun h => exec_taglen_of_tag (t := 2) ?four, fun h => exec_taglen_of_tag (t := 3) ?eight⟩
  case one => show s.b0Port.toNat / 64 = 0; omega
  case two => show s.b0Port.toNat / 64 = 1; omega
  case four => show s.b0Port.toNat / 64 = 2; omega
  case eight => show s.b0Port.toNat / 64 = 3; omega

/-! ### The first byte of a canonical encoding -/

theorem tagOf_toNat_eq_codeOf (b : Byte) : (tagOf b).toNat = codeOf (taglen b) := by
  rw [tagOf_toNat, codeOf_taglen]

/-- A number on the encoder's port that has an encoded length is a Value (R58, R59). -/
theorem exists_value_of_lenOf {v : VIn} {L : Nat} (h : lenOf v = some L) :
    ∃ w : Value, w.setWidth 64 = v ∧ w.toNat < 2 ^ payloadBits L := by
  have hdomain : v.toNat < 2 ^ 62 := by
    by_contra hnot
    rw [lenOf_eq_none.2 (Nat.not_lt.1 hnot)] at h
    cases h
  have hw : (v.setWidth 62 : Value).toNat = v.toNat := by
    rw [BitVec.toNat_setWidth, Nat.mod_eq_of_lt hdomain]
  exact ⟨v.setWidth 62, BitVec.eq_of_toNat_eq (by rw [toNat_setWidth_vIn, hw]), hw ▸ lenOf_payload h⟩

/-- The canonical encoding is a whole encoding, which its first byte declares (R53, R91). -/
theorem encOf_eq_whole {v : VIn} {L : Nat} (h : lenOf v = some L) :
    ∃ b0 body, encOf v = b0 :: body ∧ taglen b0 = L ∧ body.length + 1 = taglen b0 := by
  obtain ⟨w, rfl, hw⟩ := exists_value_of_lenOf h
  rw [encOf_eq h]
  exact encBytes_eq_whole (lenOf_mem_lengths h) hw

/-- Settles O4: the tag of a first byte is the code of the length it declares. -/
theorem firstByteTellsEncodedLength : Obligations.FirstByteTellsEncodedLength := by
  intro v L h
  obtain ⟨b0, body, henc, hlen, -⟩ := encOf_eq_whole h
  exact ⟨b0, body, henc, hlen, by rw [tagOf_toNat_eq_codeOf, hlen]⟩

end Sys2Proof.Machine
end

section
/-! Decoding the slice operand (R52, R100 to R105): a slice begins with a whole encoding, is empty or is
shorter than its first byte declares, and `PARSE` and `PEEK` deliver the same Value or failure of it. -/

namespace Sys2Proof.Machine

/-! ### The three kinds of slice -/

/-- The Value of a whole encoding is the payload of the number its bytes spell, whatever follows them
(R52, R53, R103). -/
theorem State.decodeSlice_whole {s : State} {b0 : Byte} {body tail : List Byte}
    (hs : s.sliceBytes = b0 :: (body ++ tail)) (hlen : body.length + 1 = 2 ^ (b0.toNat / 64))
    (out : Value → Nat → Delivery) :
    ∃ w : Value, w.toNat = bigNat (b0 :: body) % 2 ^ payloadBits (body.length + 1) ∧
      s.decodeSlice out = .next (s.deliver (out w (body.length + 1))) := by
  rw [← taglen_eq] at hlen
  have hd : decOf s.sliceBytes = .ok (accumulate b0 body, body.length + 1) := by
    rw [hs, decOf_whole hlen, hlen]
  have hbody : body.length ≤ 7 := by have := taglen_le b0; omega
  exact ⟨accumulate b0 body, accumulate_toNat b0 body hbody, State.decodeSlice_of_ok hd out⟩

theorem State.decodeSlice_empty {s : State} (hs : s.sliceBytes = []) (out : Value → Nat → Delivery) :
    s.decodeSlice out = .next (s.deliver (.dec .endOfStream none none)) :=
  State.decodeSlice_of_error (m := .noBytes) (by rw [hs, decOf]) out

theorem State.decodeSlice_short {s : State} {b0 : Byte} {rest : List Byte} (hs : s.sliceBytes = b0 :: rest)
    (hlen : rest.length + 1 < 2 ^ (b0.toNat / 64)) (out : Value → Nat → Delivery) :
    s.decodeSlice out = .next (s.deliver (.dec .truncated none none)) :=
  State.decodeSlice_of_error (m := .shortBytes) (by rw [hs, decOf_short hlen]) out

/-! ### `PARSE` and `PEEK` -/

/-- Settles O22. -/
theorem parseDeliversValueAndConsumed : Obligations.ParseDeliversValueAndConsumed := by
  intro s b0 body tail hr hs hlen
  rw [exec_parse_idle hr]
  exact State.decodeSlice_whole hs hlen Delivery.okParse

/-- Settles O23. -/
theorem parseOfMissingBytesFails : Obligations.ParseOfMissingBytesFails := by
  intro s hr
  rw [exec_parse_idle hr]
  exact ⟨fun hs => State.decodeSlice_empty hs _, fun _ _ hs hlen => State.decodeSlice_short hs hlen _⟩

/-- Settles O25: `PEEK` decodes the slice as `PARSE` does, and discards the count. -/
theorem peekDeliversValue : Obligations.PeekDeliversValue := by
  intro s hr
  rw [exec_peek_idle hr]
  refine ⟨fun b0 body tail hs hlen => ?whole, fun hs => ?empty, fun b0 rest hs hlen => ?short⟩
  case whole => exact State.decodeSlice_whole hs hlen fun v _ => Delivery.okValue v
  case empty => exact State.decodeSlice_empty hs _
  case short => exact State.decodeSlice_short hs hlen _

end Sys2Proof.Machine
end

section
/-! Answers as they come (R38, R39, R114, R117, R129): what a source or a sink has ready is no part of what
an answer given to it comes to, so that answers taken in two portions come to what they come to at once. -/

namespace Sys2Proof.Machine

/-! ### Answers of a source -/

/-- The state with other answers ready at the source. -/
def State.withAnswers (s : State) (as : List PullAnswer) : State := s.withSrc { s.src with answers := as }

theorem State.afterByte_withAnswers (s : State) (as : List PullAnswer) (acc : BitVec 62) (rem : BitVec 3) :
    (s.withAnswers as).afterByte acc rem = (s.afterByte acc rem).withAnswers as := by
  by_cases h0 : rem = 0
  · rw [h0]; rfl
  · rw [State.afterByte, State.afterByte, if_neg h0, if_neg h0]; rfl

theorem State.readBeat_withAnswers (s : State) (as : List PullAnswer) (a : PullAnswer) :
    (s.withAnswers as).readBeat a = (s.readBeat a).withAnswers as := by
  have hdec : (s.withAnswers as).dec = s.dec := rfl
  cases hp : s.dec.phase <;> cases a with
  | byte b => simp only [State.readBeat, hdec, hp, State.afterByte_withAnswers]
  | exhausted | fail e => simp only [State.readBeat, hdec, hp]; rfl

theorem readRun_withAnswers (bs as : List PullAnswer) (s : State) :
    readRun bs (s.withAnswers as) = readRun bs s := by
  induction bs generalizing s with
  | nil => rfl
  | cons b bs ih =>
    cases hr : s.dec.reading with
    | false =>
      rw [readRun_idle (s := s) _ hr, readRun_idle (s := s.withAnswers as) _ hr]
      rfl
    | true =>
      rw [readRun_cons_busy (s := s) b bs hr, readRun_cons_busy (s := s.withAnswers as) b bs hr,
        State.readBeat_withAnswers, ih]

/-- A `READ` that still waits after some answers takes the next ones from there. -/
theorem readRun_append {as : List PullAnswer} {s : State} (h : (readRun as s).dec.reading = true)
    (bs : List PullAnswer) : readRun (as ++ bs) s = readRun bs (readRun as s) := by
  induction as generalizing s with
  | nil => exact (readRun_withAnswers bs [] s).symm
  | cons a as ih =>
    cases hr : s.dec.reading with
    | false => rw [readRun_idle _ hr, State.withSrc_dec, hr] at h; cases h
    | true =>
      rw [readRun_cons_busy a as hr] at h
      rw [List.cons_append, readRun_cons_busy a _ hr, readRun_cons_busy a as hr, ih h]

/-- A waiting `READ` has left the source nothing ready. -/
theorem answers_readRun {as : List PullAnswer} {s : State} (h : (readRun as s).dec.reading = true) :
    (readRun as s).src.answers = [] := by
  obtain ⟨d, x, ds, he, hreading, -⟩ := readRun_frame as s
  rw [he] at h ⊢
  obtain ⟨hnone, -⟩ := hreading h
  exact hnone

theorem srcAnswer_readRun {as : List PullAnswer} {s : State} (h : (readRun as s).dec.reading = true)
    (a : PullAnswer) : (readRun as s).srcAnswer a = readRun (as ++ [a]) s := by
  rw [State.srcAnswer, answers_readRun h, List.nil_append, readRun_append h]

theorem exec_read_idle {s : State} (hr : s.dec.reading = false) :
    exec .read s = .next (readRun s.src.answers s.startRead) := by
  rw [exec, execRead, State.atDec_idle hr]

theorem exec_read_withAnswers {s : State} (hr : s.dec.reading = false) (as : List PullAnswer) :
    exec .read (s.withAnswers as) = .next (readRun as s.startRead) := by
  rw [exec_read_idle (s := s.withAnswers as) hr]
  exact congrArg _ (readRun_withAnswers as as s.startRead)

/-! ### Beats of a sink -/

/-- The state with a sink that is ready for other beats. -/
def State.withBeats (s : State) (bs : List SinkBeat) : State := s.withSnk { s.snk with beats := bs }

theorem State.writeBeat_withBeats (s : State) (bs : List SinkBeat) (b : SinkBeat) :
    (s.withBeats bs).writeBeat b = (s.writeBeat b).withBeats bs := by
  have henc : (s.withBeats bs).enc = s.enc := rfl
  cases ha : b.answer with
  | ok =>
    by_cases hl : s.enc.idx + 1 = s.enc.len.toNat
    · simp only [State.writeBeat, ha, henc, if_pos hl]; rfl
    · simp only [State.writeBeat, ha, henc, if_neg hl]; rfl
  | fail x =>
    cases hk : b.keeps <;> simp only [State.writeBeat, State.sinkMayHold, ha, hk] <;> rfl

theorem writeRun_withBeats (cs bs : List SinkBeat) (s : State) :
    writeRun cs (s.withBeats bs) = writeRun cs s := by
  induction cs generalizing s with
  | nil => rfl
  | cons c cs ih =>
    cases hp : s.enc.phase with
    | idle =>
      rw [writeRun_idle (s := s) _ hp, writeRun_idle (s := s.withBeats bs) _ hp]
      rfl
    | pushing =>
      rw [writeRun_cons_busy (s := s) c cs hp, writeRun_cons_busy (s := s.withBeats bs) c cs hp,
        State.writeBeat_withBeats, ih]

/-- A `WRITE` that still waits after some beats takes the next ones from there. -/
theorem writeRun_append {bs : List SinkBeat} {s : State} (h : (writeRun bs s).enc.phase = .pushing)
    (cs : List SinkBeat) : writeRun (bs ++ cs) s = writeRun cs (writeRun bs s) := by
  induction bs generalizing s with
  | nil => exact (writeRun_withBeats cs [] s).symm
  | cons b bs ih =>
    cases hp : s.enc.phase with
    | idle => rw [writeRun_idle _ hp, State.withSnk_enc, hp] at h; cases h
    | pushing =>
      rw [writeRun_cons_busy b bs hp] at h
      rw [List.cons_append, writeRun_cons_busy b _ hp, writeRun_cons_busy b bs hp, ih h]

/-- A waiting `WRITE` has left the sink ready for nothing. -/
theorem beats_writeRun {bs : List SinkBeat} {s : State} (h : (writeRun bs s).enc.phase = .pushing) :
    (writeRun bs s).snk.beats = [] := by
  obtain ⟨e, x, ds, he, hpushing, -⟩ := writeRun_frame bs s
  rw [he] at h ⊢
  obtain ⟨hnone, -⟩ := hpushing h
  exact hnone

theorem snkAnswer_writeRun {bs : List SinkBeat} {s : State} (h : (writeRun bs s).enc.phase = .pushing)
    (b : SinkBeat) : (writeRun bs s).snkAnswer b = writeRun (bs ++ [b]) s := by
  rw [State.snkAnswer, beats_writeRun h, List.nil_append, writeRun_append h]

theorem exec_write_of_lenOf {s : State} {L : Nat} (hp : s.enc.phase = .idle) (h : lenOf s.vPort = some L) :
    exec .write s = .next (writeRun s.snk.beats (s.startWrite L)) := by
  simp only [exec, execWrite, State.atEnc_idle hp, h]

theorem exec_write_withBeats {s : State} {L : Nat} (hp : s.enc.phase = .idle) (h : lenOf s.vPort = some L)
    (bs : List SinkBeat) : exec .write (s.withBeats bs) = .next (writeRun bs (s.startWrite L)) := by
  rw [exec_write_of_lenOf (s := s.withBeats bs) hp h]
  exact congrArg _ (writeRun_withBeats bs bs (s.startWrite L))

/-- Settles O37: both orders take the same answers, in one portion or in two; a `WRITE` out of range leaves
no encoder waiting. -/
theorem lateAnswerCountsAsReady : Obligations.LateAnswerCountsAsReady := by
  constructor
  · intro s t a hr hread hwaits
    obtain ⟨-, rfl⟩ := exec_next hread
    rw [srcAnswer_readRun hwaits]
    exact exec_read_withAnswers hr _
  · intro s t b hp hwrite hwaits
    obtain ⟨-, ⟨L, hL, rfl⟩ | ⟨-, rfl⟩⟩ := exec_next hwrite
    · rw [snkAnswer_writeRun hwaits]
      exact exec_write_withBeats hp hL _
    · rw [State.deliver_enc, hp] at hwaits
      cases hwaits

end Sys2Proof.Machine
end

section
/-! `READ` as a function of its source's answers (R110 to R115, R117): the step machine comes to what
`readOf` says for every list of answers, and what `readOf` says of bytes followed by anything is the
decoding of those bytes. -/

namespace Sys2Proof.Machine

/-! ### The states that a `READ` comes to -/

/-- The result of a `READ` on the decoder's ports (R13, R168). -/
def ReadEnd.delivery (r : ReadEnd) : Delivery :=
  match r.result with
  | .ok w => .dec .ok (some w) none
  | .error k => .dec k none none

/-- The state after a `READ` begun in `s` has ended as `r` says. -/
def State.endsRead (s : State) (r : ReadEnd) : State :=
  s.afterReads (deadDec s.draws)
    { answers := r.rest, pulls := s.src.pulls + r.pulls, taken := s.src.taken + r.taken } [r.delivery]

/-- The state in which a `READ` begun in `s` has taken these bytes and waits (R114). -/
def State.readsOn (s : State) (got : List Byte) : State :=
  (s.withDec (s.dec.holding got)).withSrc
    { answers := [], pulls := s.src.pulls + got.length + 1, taken := s.src.taken + got.length }

theorem State.startRead_eq_readsOn (s : State) : s.startRead = (s.readsOn []).withAnswers s.src.answers :=
  rfl

theorem State.readsOn_reading (s : State) (got : List Byte) : (s.readsOn got).dec.reading = true := by
  cases got <;> rfl

theorem readRun_readsOn_nil (s : State) (got : List Byte) : readRun [] (s.readsOn got) = s.readsOn got := rfl

/-! ### One beat -/

theorem accumulate_snoc (b0 : Byte) (body : List Byte) (b : Byte) :
    accumulate b0 (body ++ [b]) = accNext (accumulate b0 body) b := by
  rw [accumulate, accumulate, List.foldl_append, List.foldl_cons, List.foldl_nil]

/-- The first byte and a further one alike: the decoder has accumulated the bytes taken so far, and the
declared number less those is still to be pulled (R114). -/
theorem readBeat_byte (s : State) {got body : List Byte} {b b0 : Byte} (hgot : got ++ [b] = b0 :: body)
    (hle : body.length + 1 ≤ taglen b0) :
    (s.readsOn got).readBeat (.byte b) =
      (s.readsOn got).afterByte (accumulate b0 body) (BitVec.ofNat 3 (taglen b0 - 1 - body.length)) := by
  cases got with
  | nil => cases hgot; rfl
  | cons c cs =>
    rw [List.cons_append] at hgot
    obtain ⟨rfl, rfl⟩ := List.cons_eq_cons.1 hgot
    have hrem : BitVec.ofNat 3 (taglen c - 1 - cs.length) - 1 =
        BitVec.ofNat 3 (taglen c - 1 - (cs ++ [b]).length) := by
      rw [List.length_append, List.length_singleton] at hle ⊢
      bv_omega
    rw [accumulate_snoc, ← hrem]
    rfl

/-- The byte that completes the declared length ends the `READ` with the Value (R100, R110). -/
theorem readRun_lastByte (s : State) {got body : List Byte} {b b0 : Byte} (hgot : got ++ [b] = b0 :: body)
    (hlast : body.length + 1 = taglen b0) (as : List PullAnswer) :
    readRun (.byte b :: as) (s.readsOn got) =
      s.endsRead ⟨.ok (accumulate b0 body), body.length + 1, body.length + 1, as⟩ := by
  have hlen : got.length = body.length := by simpa using congrArg List.length hgot
  have hrem : BitVec.ofNat 3 (taglen b0 - 1 - body.length) = 0 := by
    rw [← hlast, Nat.add_sub_cancel, Nat.sub_self]; rfl
  rw [readRun_cons_busy _ _ (s.readsOn_reading got), readBeat_byte s hgot hlast.le, hrem,
    State.afterByte_zero, readRun_idle _ rfl, ← hlen]
  rfl

/-- The state after a byte that is not the last. -/
theorem State.afterByte_of_ne {s : State} {acc : BitVec 62} {rem : BitVec 3} (hr : s.dec.reading = true)
    (h0 : rem ≠ 0) :
    s.afterByte acc rem = (s.withDec ⟨true, .body, acc, rem⟩).withSrc
      { s.src with taken := s.src.taken + 1, pulls := s.src.pulls + 1 } := by
  rw [State.afterByte, if_neg h0, ← hr]
  rfl

/-- A byte that leaves some of the declared length to come is followed by the next pull (R114). -/
theorem readRun_nextByte (s : State) {got body : List Byte} {b b0 : Byte} (hgot : got ++ [b] = b0 :: body)
    (hnext : body.length + 1 < taglen b0) (as : List PullAnswer) :
    readRun (.byte b :: as) (s.readsOn got) = readRun as (s.readsOn (b0 :: body)) := by
  have hlen : got.length = body.length := by simpa using congrArg List.length hgot
  have hrem : BitVec.ofNat 3 (taglen b0 - 1 - body.length) ≠ 0 := by
    have := taglen_le b0
    bv_omega
  rw [readRun_cons_busy _ _ (s.readsOn_reading got), readBeat_byte s hgot hnext.le,
    State.afterByte_of_ne (s.readsOn_reading got) hrem]
  simp only [State.readsOn, hlen]
  rfl

/-- An answer that brings no byte ends the `READ` with its failure (R111, R112, R115). -/
theorem readRun_failure (s : State) (got : List Byte) (a : PullAnswer) (k : Status) (as : List PullAnswer)
    (ha : readsFailure (s.readsOn got) a k) :
    readRun (a :: as) (s.readsOn got) = s.endsRead ⟨.error k, got.length + 1, got.length, as⟩ := by
  have hbeat : (s.readsOn got).readBeat a = (s.readsOn got).endRead.raise .dec k := by
    cases a with
    | byte b => exact ha.elim
    | exhausted => cases ha; cases got <;> rfl
    | fail e => cases ha; cases got <;> rfl
  rw [readRun_cons_busy _ _ (s.readsOn_reading got), hbeat, readRun_idle _ rfl]
  rfl

/-! ### Every list of answers -/

/-- What a `READ` begun in `s` that has taken these bytes comes to with further answers, told by what the
function has for it: the end, or the waiting with all the answers taken. -/
def State.ReadComesTo (s : State) (got : List Byte) (as : List PullAnswer) : Option ReadEnd → Prop
  | some r => readRun as (s.readsOn got) = s.endsRead r
  | none => ∃ more, as = more.map .byte ∧ readRun as (s.readsOn got) = s.readsOn (got ++ more)

/-- One byte more, in the machine and in the function: the first byte and a further one alike. -/
theorem readComesTo_byte {s : State} {got body : List Byte} {b b0 : Byte} {as : List PullAnswer} {k : Nat}
    (hgot : got ++ [b] = b0 :: body) (hk : body.length + 1 + k = taglen b0)
    (hrest : k ≠ 0 → s.ReadComesTo (b0 :: body) as (readRest k (body.length + 1) (accumulate b0 body) as)) :
    s.ReadComesTo got (.byte b :: as) (readRest k (body.length + 1) (accumulate b0 body) as) := by
  cases k with
  | zero => exact readRun_lastByte s hgot hk as
  | succ k =>
    replace hrest := hrest k.succ_ne_zero
    have hnext := readRun_nextByte s hgot (by omega) as
    cases hr : readRest (k + 1) (body.length + 1) (accumulate b0 body) as with
    | some r =>
      rw [hr] at hrest
      exact hnext.trans hrest
    | none =>
      rw [hr] at hrest
      obtain ⟨more, rfl, hwaits⟩ := hrest
      refine ⟨b :: more, rfl, ?_⟩
      rw [hnext, hwaits, ← hgot, List.append_assoc, List.singleton_append]

/-- After the first byte the machine goes round the loop of R110. -/
theorem readComesTo_readRest {s : State} {body : List Byte} {b0 : Byte} {as : List PullAnswer} {k : Nat}
    (h0 : k ≠ 0) (hk : body.length + 1 + k = taglen b0) :
    s.ReadComesTo (b0 :: body) as (readRest k (body.length + 1) (accumulate b0 body) as) := by
  induction as generalizing body k with
  | nil =>
    obtain ⟨k, rfl⟩ := Nat.exists_eq_succ_of_ne_zero h0
    exact ⟨[], rfl, by rw [List.append_nil, readRun_readsOn_nil]⟩
  | cons a as ih =>
    obtain ⟨k, rfl⟩ := Nat.exists_eq_succ_of_ne_zero h0
    cases a with
    | exhausted => exact readRun_failure s (b0 :: body) .exhausted .truncated as rfl
    | fail e => exact readRun_failure s (b0 :: body) (.fail e) (.io e) as rfl
    | byte b =>
      have hlen : (body ++ [b]).length + 1 + k = taglen b0 := by
        rw [List.length_append, List.length_singleton]; omega
      have hbyte := readComesTo_byte (got := b0 :: body) (body := body ++ [b]) rfl hlen fun h => ih h hlen
      rwa [List.length_append, accumulate_snoc] at hbyte

/-- The machine comes to what the function of R110 says, for every list of answers (R117). -/
theorem readComesTo_readOf (s : State) (as : List PullAnswer) : s.ReadComesTo [] as (readOf as) := by
  cases as with
  | nil => exact ⟨[], rfl, rfl⟩
  | cons a as =>
    cases a with
    | exhausted => exact readRun_failure s [] .exhausted .endOfStream as rfl
    | fail e => exact readRun_failure s [] (.fail e) (.io e) as rfl
    | byte b0 =>
      have hk : ([] : List Byte).length + 1 + (taglen b0 - 1) = taglen b0 := by
        have := taglen_pos b0
        rw [List.length_nil]; omega
      exact readComesTo_byte (s := s) (as := as) (b := b0) rfl hk fun h => readComesTo_readRest h hk

theorem exec_read_eq_readRun_readsOn {s : State} (hr : s.dec.reading = false) :
    exec .read s = .next (readRun s.src.answers (s.readsOn [])) := by
  rw [exec_read_idle hr, State.startRead_eq_readsOn, readRun_withAnswers]

theorem exec_read_of_readOf_some {s : State} {r : ReadEnd} (hr : s.dec.reading = false)
    (h : readOf s.src.answers = some r) : exec .read s = .next (s.endsRead r) := by
  have hends := readComesTo_readOf s s.src.answers
  rw [h] at hends
  rw [exec_read_eq_readRun_readsOn hr, hends]

theorem exec_read_of_readOf_none {s : State} (hr : s.dec.reading = false)
    (h : readOf s.src.answers = none) :
    ∃ got, s.src.answers = got.map .byte ∧ exec .read s = .next (s.readsOn got) := by
  have hwaits := readComesTo_readOf s s.src.answers
  rw [h] at hwaits
  obtain ⟨got, hgot, hreads⟩ := hwaits
  exact ⟨got, hgot, by rw [exec_read_eq_readRun_readsOn hr, hreads, List.nil_append]⟩

/-- Settles O36, by `readComesTo_readOf`. -/
theorem readMachineAgreesWithFunction : Obligations.ReadMachineAgreesWithFunction := by
  intro s hr
  cases h : readOf s.src.answers with
  | some r => exact ⟨deadDec s.draws, rfl, rfl, exec_read_of_readOf_some hr h⟩
  | none => exact exec_read_of_readOf_none hr h

/-! ### Bytes followed by anything -/

/-- Bytes that are not too many go into the accumulation. -/
theorem readRest_bytes (k n : Nat) (acc : Value) (bs : List Byte) (as : List PullAnswer) :
    readRest (bs.length + k) n acc (bs.map .byte ++ as) =
      readRest k (n + bs.length) (bs.foldl accNext acc) as := by
  induction bs generalizing n acc with
  | nil => rw [List.length_nil, Nat.zero_add, Nat.add_zero, List.map_nil, List.nil_append, List.foldl_nil]
  | cons b bs ih =>
    rw [List.length_cons, Nat.add_right_comm, List.map_cons, List.cons_append, readRest, ih, List.foldl_cons,
      Nat.add_right_comm, Nat.add_assoc]

/-- A first byte and bytes of its declared length, the others still to come. -/
theorem readOf_bytes {b0 : Byte} {body : List Byte} {k : Nat} (hk : body.length + 1 + k = taglen b0)
    (as : List PullAnswer) :
    readOf ((b0 :: body).map .byte ++ as) = readRest k (body.length + 1) (accumulate b0 body) as := by
  have hrest : taglen b0 - 1 = body.length + k := by omega
  rw [List.map_cons, List.cons_append, readOf, hrest, readRest_bytes, Nat.add_comm 1, accumulate]

theorem readOf_whole {b0 : Byte} {body : List Byte} (h : body.length + 1 = taglen b0)
    (as : List PullAnswer) :
    readOf ((b0 :: body).map .byte ++ as) =
      some ⟨.ok (accumulate b0 body), body.length + 1, body.length + 1, as⟩ := by
  rw [readOf_bytes (k := 0) h, readRest]

theorem readOf_cut {b0 : Byte} {body : List Byte} (h : body.length + 1 < taglen b0)
    (as : List PullAnswer) :
    readOf ((b0 :: body).map .byte ++ .exhausted :: as) =
      some ⟨.error .truncated, body.length + 2, body.length + 1, as⟩ := by
  obtain ⟨k, hk⟩ := Nat.exists_eq_add_of_lt h
  rw [readOf_bytes (k := k + 1) hk.symm, readRest]

/-- A failure of the source inside a value, or before its first byte. -/
theorem readOf_fail {got : List Byte} (h : ∀ b0 body, got = b0 :: body → got.length < taglen b0)
    (e : IoErr) (as : List PullAnswer) :
    readOf (got.map .byte ++ .fail e :: as) = some ⟨.error (.io e), got.length + 1, got.length, as⟩ := by
  cases got with
  | nil => rfl
  | cons b0 body =>
    obtain ⟨k, hk⟩ := Nat.exists_eq_add_of_lt (h b0 body rfl)
    rw [readOf_bytes (k := k + 1) hk.symm, readRest, List.length_cons]

/-- Bytes that are not too few begin with a whole encoding. -/
theorem exists_whole_of_taglen_le {b0 : Byte} {r : List Byte} (h : taglen b0 ≤ r.length + 1) :
    ∃ body tail, r = body ++ tail ∧ body.length + 1 = taglen b0 := by
  have hpos := taglen_pos b0
  exact ⟨_, _, (List.take_append_drop (taglen b0 - 1) r).symm, by rw [List.length_take]; omega⟩

/-- Settles O38: the bytes are cut short, or begin with a whole encoding. -/
theorem readAgreesWithParse : Obligations.ReadAgreesWithParse := by
  intro bs rest
  cases bs with
  | nil => rfl
  | cons b0 r =>
    rcases Nat.lt_or_ge (r.length + 1) (taglen b0) with hcut | hlong
    · rw [readOf_cut hcut, decOf, if_pos hcut]
      rfl
    · obtain ⟨body, tail, rfl, hwhole⟩ := exists_whole_of_taglen_le hlong
      have hdec : decOf ((b0 :: body) ++ tail) = .ok (accumulate b0 body, taglen b0) := decOf_whole hwhole tail
      rw [← List.cons_append, hdec, List.map_append, List.append_assoc, readOf_whole hwhole]
      dsimp only
      rw [List.drop_left' (l₁ := b0 :: body) hwhole, hwhole]

/-! ### The results of `READ` -/

/-- What the statements about a `READ` say of the state it ends in. -/
theorem exec_read_ends {s : State} {r : ReadEnd} (hr : s.dec.reading = false)
    (h : readOf s.src.answers = some r) :
    ∃ t, exec .read s = .next t ∧ t.delivered = s.delivered ++ [r.delivery] ∧
      t.src = { answers := r.rest, pulls := s.src.pulls + r.pulls, taken := s.src.taken + r.taken } ∧
      t.dec.reading = false ∧ t.dec.phase = .idle ∧
      { t with dec := s.dec, src := s.src, delivered := s.delivered, draws := s.draws } = s :=
  ⟨s.endsRead r, exec_read_of_readOf_some hr h, rfl, rfl, rfl, rfl, rfl⟩

/-- Settles O31, by what `readOf` says of a whole encoding. -/
theorem readDeliversValue : Obligations.ReadDeliversValue := by
  intro s b0 body rest hr hsrc hlen
  rw [← taglen_eq] at hlen
  have hbody : body.length ≤ 7 := by have := taglen_le b0; omega
  exact ⟨accumulate b0 body, deadDec s.draws, accumulate_toNat b0 body hbody, rfl, rfl,
    exec_read_of_readOf_some hr ((congrArg readOf hsrc).trans (readOf_whole hlen rest))⟩

/-- Settles O33. -/
theorem readCutInsideValueIsTruncated : Obligations.ReadCutInsideValueIsTruncated := by
  intro s b0 body rest hr hsrc hlen
  rw [← taglen_eq] at hlen
  exact exec_read_ends hr ((congrArg readOf hsrc).trans (readOf_cut hlen rest))

/-- Settles O34. -/
theorem readPassesSourceFailureOn : Obligations.ReadPassesSourceFailureOn := by
  intro s got e rest hr hsrc hlen
  simp only [← taglen_eq] at hlen
  exact exec_read_ends hr ((congrArg readOf hsrc).trans (readOf_fail hlen e rest))

/-- Settles O32. -/
theorem readOfExhaustedSourceIsEndOfStream : Obligations.ReadOfExhaustedSourceIsEndOfStream := by
  intro s rest hr hsrc
  exact exec_read_ends (r := ⟨.error .endOfStream, 1, 0, rest⟩) hr (congrArg readOf hsrc)

/-- Settles O35. -/
theorem readWithoutAnswerWaits : Obligations.ReadWithoutAnswerWaits := by
  refine ⟨fun s hr hsrc => ?_, fun s hinbox => by rw [step, hinbox]⟩
  rw [exec_read_eq_readRun_readsOn hr, hsrc, readRun_readsOn_nil, State.readsOn, ← hsrc]
  rfl

end Sys2Proof.Machine
end

section
/-! The word that a `WRITE` in flight holds (R81, R129): it spells the encoding, so that the byte the
registers name at an index is the encoding's. -/

namespace Sys2Proof.Machine

/-! ### Bytes of a big-endian number -/

/-- A byte of a sequence, from the number that the sequence spells (R32). -/
theorem toNat_getElem_eq_bigNat (bs : List Byte) {i : Nat} (h : i < bs.length) :
    bs[i].toNat = bigNat bs / 256 ^ (bs.length - 1 - i) % 256 := by
  have hlen : (bs.drop (i + 1)).length = bs.length - 1 - i := by rw [List.length_drop]; omega
  have hlow := bigNat_lt (bs.drop (i + 1))
  have hsplit : bigNat bs = (bigNat (bs.take i) * 256 + bs[i].toNat) * 256 ^ (bs.length - 1 - i) +
      bigNat (bs.drop (i + 1)) := by
    conv_lhs => rw [← List.take_append_drop i bs, List.drop_eq_getElem_cons h]
    rw [bigNat_append, bigNat_cons, List.length_cons, hlen, pow_succ]
    ring
  rw [hlen] at hlow
  rw [hsplit, Nat.mul_comm _ (256 ^ _), Nat.mul_add_div (by positivity), Nat.div_eq_of_lt hlow, Nat.add_zero,
    Nat.mul_add_mod', Nat.mod_eq_of_lt bs[i].isLt]

/-! ### The held word -/

theorem payloadBits_eq {L : Nat} (h : L ∈ lengths) : payloadBits L = 8 * L - 2 := by
  rcases mem_lengths.1 h with rfl | rfl | rfl | rfl <;> rfl

theorem codeOf_lt (L : Nat) : codeOf L < 4 := by
  unfold codeOf
  split <;> decide

/-- The code stands above the payload, in a word that has room for both (R81). -/
theorem wireWord_toNat {v : VIn} {L : Nat} (h : lenOf v = some L) :
    (wireWord L v).toNat = codeOf L * 2 ^ (8 * L - 2) + v.toNat := by
  have hL := lenOf_mem_lengths h
  have hv := lenOf_payload h
  have hbits := payloadBits_le_of_mem_lengths hL
  rw [payloadBits_eq hL] at hv hbits
  have hcode := codeOf_lt L
  have hroom : 2 ^ (8 * L - 2) * codeOf L < 2 ^ 64 :=
    calc 2 ^ (8 * L - 2) * codeOf L
        ≤ 2 ^ 62 * 3 := Nat.mul_le_mul (Nat.pow_le_pow_right (by decide) hbits) (by omega)
      _ < 2 ^ 64 := by decide
  rw [wireWord, BitVec.toNat_or, BitVec.toNat_shiftLeft, BitVec.toNat_ofNat, Nat.shiftLeft_eq,
    Nat.mod_eq_of_lt (a := codeOf L) (by omega), Nat.mul_comm, Nat.mod_eq_of_lt hroom,
    ← Nat.two_pow_add_eq_or_of_lt hv]

theorem bigNat_encOf {v : VIn} {L : Nat} (h : lenOf v = some L) :
    bigNat (encOf v) = (wireWord L v).toNat := by
  rw [encOf_eq h, bigNat_encBytes (mem_lengths.1 (lenOf_mem_lengths h)) (lenOf_payload h), wireWord_toNat h]

theorem byteAt_toNat (e : EncRegs) (i : Nat) :
    (e.byteAt i).toNat = e.hold.toNat / 256 ^ (e.len.toNat - 1 - i) % 256 := by
  rw [EncRegs.byteAt, BitVec.toNat_setWidth, BitVec.toNat_ushiftRight, Nat.shiftRight_eq_div_pow, pow_mul]
  rfl

/-- The byte that the registers of a `WRITE` name is the one at that place of the number they hold. -/
theorem getElem?_encOf {v : VIn} {L i : Nat} (h : lenOf v = some L) (hi : i < L) (p : EncPhase) (k : Nat) :
    (encOf v)[i]? =
      some (EncRegs.byteAt { phase := p, hold := wireWord L v, len := lenPort L, idx := k } i) := by
  have hlen := length_encOf h
  rw [List.getElem?_eq_getElem (by omega)]
  refine congrArg some (BitVec.eq_of_toNat_eq ?_)
  rw [toNat_getElem_eq_bigNat, bigNat_encOf h, byteAt_toNat, hlen, lenPort_lenOf h]

/-- Settles O11. -/
theorem heldWordNamesEncodingBytes : Obligations.HeldWordNamesEncodingBytes :=
  fun _ _ _ p k h hi => ⟨wireWord_toNat h, getElem?_encOf h hi p k⟩

end Sys2Proof.Machine
end

section
/-! `WRITE` as a function of what its sink does (R125 to R129, R148): the step machine comes to what
`writeOf` says for every list of beats; and bytes that the sink takes are, for `writeOf`, pushed and kept in
front of what it says of the others. -/

namespace Sys2Proof.Machine

/-! ### The states that a `WRITE` comes to -/

/-- The state after a `WRITE` begun in `s` has ended as `w` says. -/
def State.endsWrite (s : State) (w : WriteEnd) : State :=
  s.afterWrites (deadEnc s.draws)
    { beats := w.rest, offered := s.snk.offered ++ w.pushed, contents := s.snk.contents ++ w.kept }
    [.enc w.status none]

/-- The state in which a `WRITE` of `L` bytes begun in `s` has had `n` of them taken and waits, the next one
pushed (R129). -/
def State.writesOn (s : State) (L n : Nat) : State :=
  (s.withEnc { phase := .pushing, hold := wireWord L s.vPort, len := lenPort L, idx := n }).withSnk
    { beats := [], offered := s.snk.offered ++ (encOf s.vPort).take (n + 1),
      contents := s.snk.contents ++ (encOf s.vPort).take n }

theorem writeRun_writesOn_nil (s : State) (L n : Nat) : writeRun [] (s.writesOn L n) = s.writesOn L n := rfl

/-- One byte more of the encoding is the one that the registers name. -/
theorem append_byteAt_writesOn {s : State} {L i : Nat} (h : lenOf s.vPort = some L) (hi : i < L) (n : Nat)
    (old : List Byte) :
    old ++ (encOf s.vPort).take i ++ [(s.writesOn L n).enc.byteAt i] =
      old ++ (encOf s.vPort).take (i + 1) := by
  rw [List.take_add_one, getElem?_encOf h hi .pushing n, List.append_assoc]
  rfl

theorem State.startWrite_eq_writesOn {s : State} {L : Nat} (h : lenOf s.vPort = some L) :
    s.startWrite L = (s.writesOn L 0).withBeats s.snk.beats := by
  have hpos : 0 < L := by have := lenOf_cases h; omega
  rw [State.writesOn, ← append_byteAt_writesOn h hpos 0, List.take_zero, List.append_nil, List.append_nil]
  rfl

/-! ### One beat -/

/-- The beat that has the last byte taken (R129). -/
theorem State.writeBeat_last {s : State} {b : SinkBeat} (hb : b.answer = .ok)
    (hlast : s.enc.idx + 1 = s.enc.len.toNat) :
    s.writeBeat b = s.afterWrites (deadEnc s.draws)
      { s.snk with contents := s.snk.contents ++ [s.enc.byteAt s.enc.idx] } [.enc .ok none] := by
  simp only [State.writeBeat, hb, if_pos hlast]
  rfl

/-- The beat that has another byte taken pushes the next one (R129). -/
theorem State.writeBeat_next {s : State} {b : SinkBeat} (hb : b.answer = .ok)
    (hnext : s.enc.idx + 1 ≠ s.enc.len.toNat) :
    s.writeBeat b = (s.withEnc { s.enc with idx := s.enc.idx + 1 }).withSnk
      { s.snk with contents := s.snk.contents ++ [s.enc.byteAt s.enc.idx],
                   offered := s.snk.offered ++ [s.enc.byteAt (s.enc.idx + 1)] } := by
  simp only [State.writeBeat, hb, if_neg hnext]
  rfl

/-- The beat at which the sink fails: it keeps the byte last pushed or not (R127). -/
theorem State.writeBeat_fail {s : State} {b : SinkBeat} {x : IoErr} (hb : b.answer = .fail x) :
    s.writeBeat b = s.afterWrites (deadEnc s.draws)
      { s.snk with contents := s.snk.contents ++ if b.keeps then [s.enc.byteAt s.enc.idx] else [] }
      [.enc (.io x) none] := by
  rcases s.writeBeat_cases b with ⟨hok, -⟩ | ⟨hok, -⟩ | ⟨y, hy, he⟩
  · rw [hb] at hok; cases hok
  · rw [hb] at hok; cases hok
  · rw [hb] at hy
    cases hy
    rw [he, SinkBeat.has, hb]
    rfl

/-- The last byte taken ends the `WRITE` with `Ok` (R125). -/
theorem writeRun_lastByte {s : State} {L n : Nat} (h : lenOf s.vPort = some L) (hlast : n + 1 = L)
    {b : SinkBeat} (hb : b.answer = .ok) (bs : List SinkBeat) :
    writeRun (b :: bs) (s.writesOn L n) =
      s.endsWrite ⟨.ok, (encOf s.vPort).take (n + 1), (encOf s.vPort).take (n + 1), bs⟩ := by
  rw [writeRun_cons_busy b bs rfl, State.writeBeat_last hb (hlast.trans (lenPort_lenOf h).symm),
    writeRun_idle bs rfl, State.endsWrite]
  dsimp only
  rw [← append_byteAt_writesOn h (by omega) n s.snk.contents]
  rfl

/-- Another byte taken is followed by the next push (R125, R129). -/
theorem writeRun_nextByte {s : State} {L n : Nat} (h : lenOf s.vPort = some L) (hnext : n + 1 < L)
    {b : SinkBeat} (hb : b.answer = .ok) (bs : List SinkBeat) :
    writeRun (b :: bs) (s.writesOn L n) = writeRun bs (s.writesOn L (n + 1)) := by
  have hidx : n + 1 ≠ (lenPort L).toNat := by rw [lenPort_lenOf h]; exact hnext.ne
  have hpushed := append_byteAt_writesOn h hnext n s.snk.offered
  have htaken := append_byteAt_writesOn h (Nat.lt_of_succ_lt hnext) n s.snk.contents
  rw [writeRun_cons_busy b bs rfl, State.writeBeat_next hb hidx]
  conv_rhs => rw [State.writesOn, ← hpushed, ← htaken]
  rfl

/-- A failure of the sink ends the `WRITE` with the same payload (R127). -/
theorem writeRun_failure {s : State} {L n : Nat} (h : lenOf s.vPort = some L) (hn : n < L)
    {b : SinkBeat} {x : IoErr} (hb : b.answer = .fail x) (bs : List SinkBeat) :
    writeRun (b :: bs) (s.writesOn L n) =
      s.endsWrite ⟨.io x, (encOf s.vPort).take (n + 1),
        (encOf s.vPort).take (if b.keeps then n + 1 else n), bs⟩ := by
  have hkept : (s.writesOn L n).snk.contents ++
      (if b.keeps then [(s.writesOn L n).enc.byteAt n] else []) =
      s.snk.contents ++ (encOf s.vPort).take (if b.keeps then n + 1 else n) := by
    cases b.keeps with
    | false => exact List.append_nil _
    | true => exact append_byteAt_writesOn h hn n s.snk.contents
  rw [writeRun_cons_busy b bs rfl, State.writeBeat_fail hb, writeRun_idle bs rfl, State.endsWrite]
  dsimp only
  rw [← hkept]
  rfl

/-! ### Every list of beats -/

/-- What the function has for all the bytes, from what it has for those behind the first ones. -/
def WriteEnd.after (es : List Byte) (w : WriteEnd) : WriteEnd :=
  ⟨w.status, es ++ w.pushed, es ++ w.kept, w.rest⟩

theorem WriteEnd.after_after (es fs : List Byte) (w : WriteEnd) :
    (w.after fs).after es = w.after (es ++ fs) := by
  simp only [WriteEnd.after, List.append_assoc]

theorem writeRest_ok {b : SinkBeat} (hb : b.answer = .ok) (e : Byte) (es : List Byte) (bs : List SinkBeat) :
    writeRest (e :: es) (b :: bs) = (writeRest es bs).map (WriteEnd.after [e]) := by
  rw [writeRest, hb]
  cases writeRest es bs <;> rfl

theorem writeRest_fail {b : SinkBeat} {x : IoErr} (hb : b.answer = .fail x) (e : Byte) (es : List Byte)
    (bs : List SinkBeat) :
    writeRest (e :: es) (b :: bs) = some ⟨.io x, [e], if b.keeps then [e] else [], bs⟩ := by
  rw [writeRest, hb]

/-- What a `WRITE` of `L` bytes begun in `s` that has had `n` of them taken comes to with further beats, told
by what the function has for the bytes left: the end, or the waiting with all the beats taken. -/
def State.WriteComesTo (s : State) (L n : Nat) (bs : List SinkBeat) : Option WriteEnd → Prop
  | some w => writeRun bs (s.writesOn L n) = s.endsWrite (w.after ((encOf s.vPort).take n))
  | none => writeRun bs (s.writesOn L n) = s.writesOn L (n + bs.length)

/-- The machine goes round the loop of R125. -/
theorem writeComesTo_writeRest {s : State} {L n : Nat} (h : lenOf s.vPort = some L) (hn : n < L)
    (bs : List SinkBeat) : s.WriteComesTo L n bs (writeRest ((encOf s.vPort).drop n) bs) := by
  induction bs generalizing n with
  | nil =>
    rw [List.drop_eq_getElem_cons (by rwa [length_encOf h])]
    exact writeRun_writesOn_nil s L n
  | cons b bs ih =>
    have hlen : n < (encOf s.vPort).length := by rwa [length_encOf h]
    have htake := List.take_append_getElem hlen
    rw [List.drop_eq_getElem_cons hlen]
    cases hb : b.answer with
    | fail x =>
      rw [writeRest_fail hb]
      refine (writeRun_failure h hn hb bs).trans (congrArg s.endsWrite ?_)
      cases b.keeps <;> simp [WriteEnd.after, htake]
    | ok =>
      rw [writeRest_ok hb]
      rcases Nat.lt_or_eq_of_le (Nat.succ_le_of_lt hn) with hnext | hlast
      · have hrest := ih hnext
        cases hw : writeRest ((encOf s.vPort).drop (n + 1)) bs with
        | some w =>
          rw [hw] at hrest
          refine (writeRun_nextByte h hnext hb bs).trans (hrest.trans (congrArg s.endsWrite ?_))
          rw [WriteEnd.after_after, htake]
        | none =>
          rw [hw] at hrest
          refine (writeRun_nextByte h hnext hb bs).trans (hrest.trans ?_)
          exact congrArg (s.writesOn L) (Nat.succ_add_eq_add_succ n bs.length)
      · rw [List.drop_eq_nil_of_le (by rw [length_encOf h, ← hlast])]
        refine (writeRun_lastByte h hlast hb bs).trans (congrArg s.endsWrite ?_)
        simp [WriteEnd.after, htake]

theorem writeOf_of_lenOf {v : VIn} {L : Nat} (h : lenOf v = some L) (bs : List SinkBeat) :
    writeOf v bs = writeRest (encOf v) bs := by
  rw [writeOf, h]

theorem writeComesTo_writeOf {s : State} {L : Nat} (h : lenOf s.vPort = some L) (bs : List SinkBeat) :
    s.WriteComesTo L 0 bs (writeOf s.vPort bs) := by
  rw [writeOf_of_lenOf h]
  exact writeComesTo_writeRest h (by have := lenOf_cases h; omega) bs

theorem exec_write_eq_writeRun_writesOn {s : State} {L : Nat} (hp : s.enc.phase = .idle)
    (h : lenOf s.vPort = some L) : exec .write s = .next (writeRun s.snk.beats (s.writesOn L 0)) := by
  rw [exec_write_of_lenOf hp h, State.startWrite_eq_writesOn h, writeRun_withBeats]

theorem exec_write_outOfRange {s : State} (hp : s.enc.phase = .idle) (h : lenOf s.vPort = none) :
    exec .write s = .next (s.deliver (.enc .outOfRange none)) := by
  simp only [exec, execWrite, State.atEnc_idle hp, h, State.raise_enc]

/-- Settles O42. -/
theorem writeOutOfRangePushesNothing : Obligations.WriteOutOfRangePushesNothing :=
  fun _ hp h => exec_write_outOfRange hp (lenOf_eq_none.2 h)

theorem exec_write_of_writeOf_some {s : State} {L : Nat} {w : WriteEnd} (hp : s.enc.phase = .idle)
    (h : lenOf s.vPort = some L) (hw : writeOf s.vPort s.snk.beats = some w) :
    exec .write s = .next (s.endsWrite w) := by
  have hends := writeComesTo_writeOf h s.snk.beats
  rw [hw] at hends
  rw [exec_write_eq_writeRun_writesOn hp h, hends]
  rfl

theorem exec_write_of_writeOf_none {s : State} {L : Nat} (hp : s.enc.phase = .idle)
    (h : lenOf s.vPort = some L) (hw : writeOf s.vPort s.snk.beats = none) :
    exec .write s = .next (s.writesOn L s.snk.beats.length) := by
  have hwaits := writeComesTo_writeOf h s.snk.beats
  rw [hw] at hwaits
  rw [exec_write_eq_writeRun_writesOn hp h, hwaits, Nat.zero_add]

/-- Settles O44: out of range the function ends at once, and the sink is untouched; else by
`writeComesTo_writeRest`. -/
theorem writeMachineAgreesWithFunction : Obligations.WriteMachineAgreesWithFunction := by
  intro s hp
  cases hL : lenOf s.vPort with
  | none =>
    rw [writeOf, hL]
    refine ⟨s.enc, s.draws, hp, ?_⟩
    rw [exec_write_outOfRange hp hL, List.append_nil, List.append_nil]
    rfl
  | some L =>
    cases hw : writeOf s.vPort s.snk.beats with
    | some w => exact ⟨deadEnc s.draws, s.draws + 1, rfl, exec_write_of_writeOf_some hp hL hw⟩
    | none => exact ⟨L, rfl, exec_write_of_writeOf_none hp hL hw⟩

/-! ### Bytes taken, followed by anything -/

/-- Bytes that the sink takes are pushed and kept, whatever it does at the others. -/
theorem writeRest_append {es : List Byte} {oks : List SinkBeat} (hlen : es.length = oks.length)
    (hoks : ∀ b ∈ oks, b.answer = .ok) (fs : List Byte) (bs : List SinkBeat) :
    writeRest (es ++ fs) (oks ++ bs) = (writeRest fs bs).map (WriteEnd.after es) := by
  induction es generalizing oks with
  | nil =>
    rw [List.length_nil] at hlen
    rw [List.eq_nil_of_length_eq_zero hlen.symm]
    exact Option.map_id'.symm
  | cons e es ih =>
    cases oks with
    | nil => cases hlen
    | cons b oks =>
      obtain ⟨hb, hoks⟩ := List.forall_mem_cons.1 hoks
      rw [List.cons_append, List.cons_append, writeRest_ok hb, ih (Nat.succ.inj hlen) hoks, Option.map_map]
      simp only [Function.comp_def, WriteEnd.after_after, List.singleton_append]

/-- A sink that takes every byte has the encoding (R125). -/
theorem writeOf_taken {v : VIn} {L : Nat} {beats : List SinkBeat} (h : lenOf v = some L)
    (hlen : beats.length = L) (hoks : ∀ b ∈ beats, b.answer = .ok) (rest : List SinkBeat) :
    writeOf v (beats ++ rest) = some ⟨.ok, encOf v, encOf v, rest⟩ := by
  have hbytes := writeRest_append (hlen ▸ length_encOf h) hoks [] rest
  rw [List.append_nil] at hbytes
  rw [writeOf_of_lenOf h, hbytes, writeRest]
  simp [WriteEnd.after]

/-- A sink that fails at some byte ends the pushes there (R127). -/
theorem writeOf_fail {v : VIn} {L : Nat} {oks : List SinkBeat} (h : lenOf v = some L)
    (hlen : oks.length < L) (hoks : ∀ b ∈ oks, b.answer = .ok) (x : IoErr) (keeps : Bool)
    (rest : List SinkBeat) :
    writeOf v (oks ++ ⟨.fail x, keeps⟩ :: rest) =
      some ⟨.io x, (encOf v).take (oks.length + 1),
        (encOf v).take (if keeps then oks.length + 1 else oks.length), rest⟩ := by
  have hlt : oks.length < (encOf v).length := by rwa [length_encOf h]
  have htaken : ((encOf v).take oks.length).length = oks.length := List.length_take_of_le hlt.le
  have hbytes := writeRest_append htaken hoks ((encOf v).drop oks.length) (⟨.fail x, keeps⟩ :: rest)
  rw [List.take_append_drop, List.drop_eq_getElem_cons hlt, writeRest_fail rfl] at hbytes
  rw [writeOf_of_lenOf h, hbytes]
  cases keeps <;> simp [WriteEnd.after, List.take_append_getElem hlt]

/-! ### The results of `WRITE` -/

/-- Settles O41, by what `writeOf` says of a sink that takes every byte. -/
theorem writePushesCanonicalEncoding : Obligations.WritePushesCanonicalEncoding := by
  intro s L beats rest hp hL hlen hoks hsnk
  exact ⟨deadEnc s.draws, rfl,
    exec_write_of_writeOf_some hp hL ((congrArg _ hsnk).trans (writeOf_taken hL hlen hoks rest))⟩

/-- Settles O43, by what `writeOf` says of a sink that fails. -/
theorem writeStopsAtSinkFailure : Obligations.WriteStopsAtSinkFailure := by
  intro s L oks rest x keeps hp hL hlen hoks hsnk
  exact ⟨_, exec_write_of_writeOf_some hp hL
    ((congrArg _ hsnk).trans (writeOf_fail hL hlen hoks x keeps rest)), rfl, rfl, rfl, rfl⟩

end Sys2Proof.Machine
end

section
/-! The round trips of the wire format (R140, R144, R146, R147, R149): what decoding gives of a canonical
encoding, of an encoding cut short, and of what `APPEND` left in a buffer. -/

namespace Sys2Proof.Machine

/-! ### Decoding a canonical encoding -/

/-- The canonical encoding of a Value is a whole encoding that accumulates to the Value (R53, R100). -/
theorem encOf_value_eq_whole {w : Value} {L : Nat} (h : lenOf (w.setWidth 64) = some L) :
    ∃ b0 body, encOf (w.setWidth 64) = b0 :: body ∧ taglen b0 = L ∧ body.length + 1 = taglen b0 ∧
      accumulate b0 body = w := by
  have hL := lenOf_mem_lengths h
  have hw : w.toNat < 2 ^ payloadBits L := by rw [← toNat_setWidth_vIn]; exact lenOf_payload h
  obtain ⟨b0, body, he, htag, hlen⟩ := encBytes_eq_whole hL hw
  exact ⟨b0, body, by rw [encOf_eq h, he], htag, hlen, accumulate_encBytes hL hw he htag hlen⟩

theorem decOf_encOf {w : Value} {L : Nat} (h : lenOf (w.setWidth 64) = some L) (tail : List Byte) :
    decOf (encOf (w.setWidth 64) ++ tail) = .ok (w, L) := by
  obtain ⟨b0, body, he, htag, hlen, hacc⟩ := encOf_value_eq_whole h
  rw [he, List.cons_append, decOf_whole hlen, hacc, htag]

/-- Settles O5: what has an encoding is a Value. -/
theorem decodeOfEncodingGivesValue : Obligations.DecodeOfEncodingGivesValue := by
  intro v L tail h
  obtain ⟨w, rfl, -⟩ := exists_value_of_lenOf h
  exact ⟨w, (toNat_setWidth_vIn w).symm, decOf_encOf h tail⟩

theorem exists_lenOf_of_encOf_ne_nil {v : VIn} (h : encOf v ≠ []) : ∃ L, lenOf v = some L :=
  Option.ne_none_iff_exists'.1 fun hnone => h (encOf_eq_nil hnone)

/-- Settles O7: the longer encoding decodes to either of the two. -/
theorem encodingsArePrefixFree : Obligations.EncodingsArePrefixFree := by
  intro v w L tail hv h
  have hne : encOf w ≠ [] := by
    obtain ⟨b0, body, he, -⟩ := encOf_eq_whole hv
    rw [h, he]
    exact List.cons_ne_nil _ _
  obtain ⟨M, hw⟩ := exists_lenOf_of_encOf_ne_nil hne
  obtain ⟨x, rfl, -⟩ := exists_value_of_lenOf hv
  obtain ⟨y, rfl, -⟩ := exists_value_of_lenOf hw
  have hx := decOf_encOf hv tail
  have hy := decOf_encOf hw []
  rw [List.append_nil, h, hx] at hy
  obtain rfl : x = y := congrArg Prod.fst (Except.ok.inj hy)
  exact ⟨rfl, List.self_eq_append_right.1 h⟩

/-- Settles O8: the slice begins with the form of length `L` of the Value, and no form that holds it is
shorter than the canonical one. -/
theorem reencodingIsNoLonger : Obligations.ReencodingIsNoLonger := by
  intro bs w L h
  obtain ⟨hL, hw, tail, rfl⟩ := decOf_eq_ok_iff.1 h
  obtain ⟨M, hM⟩ := Option.isSome_iff_exists.1 (lenOf_value_isSome w)
  have hML : M ≤ L := lenOf_le_of_payload hM hL (by rwa [toNat_setWidth_vIn])
  rw [List.take_left' (length_encBytes L _)]
  refine ⟨M, hM, hML, ⟨fun he => ?lengths, fun he => ?canonical⟩, fun hne => ?shorter⟩
  case lengths => rw [← length_encOf hM, he, length_encBytes]
  case canonical => rw [encOf_eq hM, he]
  case shorter => rw [length_encOf hM]; exact lt_of_le_of_ne hML hne

/-! ### The slice operand -/

/-- Settles O27: cut before byte 0 nothing is left, cut after it the rest is shorter than byte 0
declares. -/
theorem parseOfCutEncodingFails : Obligations.ParseOfCutEncodingFails := by
  intro s v L k hr hL hk hs
  rw [exec_parse_idle hr]
  cases k with
  | zero => exact State.decodeSlice_empty hs _
  | succ k =>
    obtain ⟨b0, body, he, htag, hlen⟩ := encOf_eq_whole hL
    rw [he, List.take_succ_cons] at hs
    refine State.decodeSlice_short hs ?_ _
    rw [← taglen_eq, List.length_take]
    omega

/-- What `PEEK` delivers is told by the slice operand (R105, R146). -/
theorem exec_peek_of_sliceBytes (bs : List Byte) :
    ∃ d, ∀ s : State, s.dec.reading = false → s.sliceBytes = bs → exec .peek s = .next (s.deliver d) := by
  cases hd : decOf bs with
  | ok r =>
    refine ⟨Delivery.okValue r.1, fun s hr hs => ?_⟩
    rw [exec_peek_idle hr, State.decodeSlice_of_ok (v := r.1) (L := r.2) (by rw [hs, hd])]
  | error m =>
    refine ⟨.dec (missingStatus m) none none, fun s hr hs => ?_⟩
    rw [exec_peek_idle hr, State.decodeSlice_of_error (by rw [hs, hd])]

/-- Settles O26: delivering a result leaves the slice operand and the decoder's registers. -/
theorem peekTwiceGivesTheSame : Obligations.PeekTwiceGivesTheSame := by
  intro s hr
  obtain ⟨d, hpeek⟩ := exec_peek_of_sliceBytes s.sliceBytes
  exact ⟨d, _, hpeek s hr rfl, hpeek (s.deliver d) hr rfl, rfl, rfl⟩

/-- From its old end on, a space that was appended to holds the bytes appended (R36). -/
theorem Space.drop_bytes_append (sp : Space) (bs : List Byte) : (sp.append bs).bytes.drop sp.len = bs := by
  rw [Space.bytes_append, List.drop_left' sp.length_bytes]

theorem exec_parse_of_decOf {s : State} {v : Value} {L : Nat} (hr : s.dec.reading = false)
    (h : decOf s.sliceBytes = .ok (v, L)) :
    exec .parse s = .next (s.deliver (.dec .ok (some v) (some (lenPort L)))) := by
  rw [exec_parse_idle hr, State.decodeSlice_of_ok h, Delivery.okParse]

/-- Settles O28: with the cursor at the buffer's old length, the slice operand is the encoding. -/
theorem parseReadsBackAppend : Obligations.ParseReadsBackAppend := by
  intro s L hp hr hL hroom
  obtain ⟨w, hw, -⟩ := exists_value_of_lenOf hL
  refine ⟨_, _, _, w, exec_append_of_room hp hL hroom, rfl, rfl, by rw [← hw, toNat_setWidth_vIn], ?_⟩
  have hdec : decOf (encOf s.vPort) = .ok (w, L) := by
    rw [← hw] at hL ⊢
    rw [← decOf_encOf hL [], List.append_nil]
  refine exec_parse_of_decOf hr (.trans ?_ hdec)
  exact congrArg decOf (Space.drop_bytes_append s.dst.space (encOf s.vPort))

end Sys2Proof.Machine
end

section
/-! The round trips over a stream (R145, R147): `READ` of a canonical encoding takes exactly its bytes, so
that one `READ` after another gives back a sequence of Values. -/

namespace Sys2Proof.Machine

theorem readOf_encOf {w : Value} {L : Nat} (h : lenOf (w.setWidth 64) = some L) (rest : List PullAnswer) :
    readOf ((encOf (w.setWidth 64)).map .byte ++ rest) = some ⟨.ok w, L, L, rest⟩ := by
  obtain ⟨b0, body, he, htag, hlen, hacc⟩ := encOf_value_eq_whole h
  rw [he, readOf_whole hlen, hacc, hlen, htag]

/-- Settles O39. -/
theorem readOfEncodingGivesValue : Obligations.ReadOfEncodingGivesValue := by
  intro v L rest h
  obtain ⟨w, rfl, -⟩ := exists_value_of_lenOf h
  exact ⟨w, (toNat_setWidth_vIn w).symm, readOf_encOf h rest⟩

theorem exec_read_encOf {s : State} {w : Value} {rest : List PullAnswer} (hr : s.dec.reading = false)
    (hsrc : s.src.answers = (encOf (w.setWidth 64)).map .byte ++ rest) :
    ∃ t, exec .read s = .next t ∧ t.dec.reading = false ∧ t.src.answers = rest ∧
      t.delivered = s.delivered ++ [.dec .ok (some w) none] := by
  obtain ⟨L, hL⟩ := Option.isSome_iff_exists.1 (lenOf_value_isSome w)
  exact ⟨_, exec_read_of_readOf_some hr ((congrArg readOf hsrc).trans (readOf_encOf hL rest)), rfl, rfl, rfl⟩

theorem execTimes_succ {i : Instr} {s t : State} (h : exec i s = .next t) (n : Nat) :
    execTimes i (n + 1) s = execTimes i n t := by
  rw [execTimes, h]

/-- Settles O40, by induction on the Values: the first `READ` leaves the encodings of the others. -/
theorem repeatedReadGivesBackEveryValue : Obligations.RepeatedReadGivesBackEveryValue := by
  intro s ws rest hr hsrc
  induction ws generalizing s with
  | nil => exact ⟨s, rfl, hsrc, hr, (List.append_nil _).symm⟩
  | cons w ws ih =>
    rw [List.flatMap_cons, List.map_append, List.append_assoc] at hsrc
    obtain ⟨u, hread, hur, husrc, hudel⟩ := exec_read_encOf hr hsrc
    obtain ⟨t, htimes, htsrc, htr, htdel⟩ := ih u hur husrc
    refine ⟨t, (execTimes_succ hread _).trans htimes, htsrc, htr, ?_⟩
    rw [htdel, hudel, List.append_assoc, List.map_cons, List.singleton_append]

end Sys2Proof.Machine
end

section
/-! The matrix of results (R151, R165, R168): what each instruction, and each answer of a source or a sink,
adds to the results that the host has received. -/

namespace Sys2Proof.Machine

/-- The move from `s` to `t` delivered one result, of a kind that the matrix gives the instruction. -/
def DeliversOne (i : Instr) (s t : State) : Prop :=
  ∃ d, t.delivered = s.delivered ++ [d] ∧ mayDeliver i d = true

theorem deliversOne_deliver {i : Instr} {d : Delivery} (s : State) (h : mayDeliver i d = true) :
    DeliversOne i s (s.deliver d) :=
  ⟨d, rfl, h⟩

/-- Answers bring no result, or one to the `READ` in flight. -/
theorem readRun_delivers (as : List PullAnswer) (s : State) :
    (readRun as s).delivered = s.delivered ∨ s.dec.reading = true ∧ DeliversOne .read s (readRun as s) := by
  cases hr : s.dec.reading with
  | false => exact .inl (by rw [readRun_idle as hr, State.withSrc_delivered])
  | true =>
    obtain ⟨d, x, ds, he, -, -, hkinds⟩ := readRun_frame as s
    rw [he]
    obtain rfl | ⟨w, rfl⟩ | ⟨k, hk, rfl⟩ := hkinds
    · exact .inl (List.append_nil _)
    · exact .inr ⟨rfl, _, rfl, rfl⟩
    · refine .inr ⟨rfl, _, rfl, ?_⟩
      obtain rfl | rfl | ⟨e, rfl⟩ := hk <;> rfl

/-- A sink's beats bring no result, or one to the `WRITE` in flight. -/
theorem writeRun_delivers (bs : List SinkBeat) (s : State) :
    (writeRun bs s).delivered = s.delivered ∨
      s.enc.phase = .pushing ∧ DeliversOne .write s (writeRun bs s) := by
  cases hp : s.enc.phase with
  | idle => exact .inl (by rw [writeRun_idle bs hp, State.withSnk_delivered])
  | pushing =>
    obtain ⟨e, x, ds, he, -, -, hkinds⟩ := writeRun_frame bs s
    rw [he]
    obtain rfl | rfl | ⟨f, rfl⟩ := hkinds
    · exact .inl (List.append_nil _)
    · exact .inr ⟨rfl, _, rfl, rfl⟩
    · exact .inr ⟨rfl, _, rfl, rfl⟩

/-- An instruction delivers one result that the matrix gives it, or none, and then it may wait. -/
theorem exec_delivers {i : Instr} {s t : State} (h : exec i s = .next t) (hwf : i.wf = true) :
    (t.delivered = s.delivered ∧ (i = .read ∨ i = .write)) ∨ DeliversOne i s t := by
  replace h := exec_next h
  cases i with
  | len =>
    obtain ⟨-, ⟨L, hL, rfl⟩ | ⟨-, rfl⟩⟩ := h
    · exact .inr (deliversOne_deliver s (wf_okLen hL))
    · exact .inr (deliversOne_deliver s rfl)
  | append =>
    obtain ⟨-, ⟨L, -, -, rfl⟩ | ⟨-, rfl⟩⟩ := h
    · exact .inr (deliversOne_deliver (s.withDst _) rfl)
    · exact .inr (deliversOne_deliver s rfl)
  | parse =>
    obtain ⟨-, ⟨v, L, hd, rfl⟩ | ⟨m, -, rfl⟩⟩ := h
    · obtain ⟨hL, hv⟩ := decOf_ok_range hd
      exact .inr (deliversOne_deliver s (wf_okParse hL hv))
    · exact .inr (deliversOne_deliver s (by cases m <;> rfl))
  | peek =>
    obtain ⟨-, ⟨v, L, -, rfl⟩ | ⟨m, -, rfl⟩⟩ := h
    · exact .inr (deliversOne_deliver s rfl)
    · exact .inr (deliversOne_deliver s (by cases m <;> rfl))
  | read =>
    obtain ⟨-, rfl⟩ := h
    exact (readRun_delivers s.src.answers s.startRead).imp (⟨·, .inl rfl⟩) And.right
  | write =>
    obtain ⟨-, ⟨L, -, rfl⟩ | ⟨-, rfl⟩⟩ := h
    · exact (writeRun_delivers s.snk.beats (s.startWrite L)).imp (⟨·, .inr rfl⟩) And.right
    · exact .inr (deliversOne_deliver s rfl)
  | taglen => rw [h]; exact .inr (deliversOne_deliver s (wf_taglen _))
  | reservedOp7 => exact h.elim
  | vi1 | vi2 | vi4 | vi8 =>
    obtain ⟨-, rfl⟩ := h
    exact .inr (deliversOne_deliver s (Bool.and_eq_true_iff.2 ⟨beq_self_eq_true _, rfl⟩))

/-- Settles O46. -/
theorem resultsAreThoseOfTheInstruction : Obligations.ResultsAreThoseOfTheInstruction :=
  ⟨fun _ _ _ hwf h => exec_delivers h hwf, fun s a => readRun_delivers (s.src.answers ++ [a]) s,
    fun s b => writeRun_delivers (s.snk.beats ++ [b]) s⟩

end Sys2Proof.Machine
end

section
/-! Which moves have a meaning, what a reset leaves, and the codes of the statuses (R16, R37, R42, R60, R127,
R160, R175, R190, R191). -/

namespace Sys2Proof.Machine

/-! ### Outcomes that are a next state -/

/-- The outcome is a next state. -/
def isNext : Result → Bool
  | .next _ => true
  | .fault _ => false
  | .refused _ => false

theorem isNext_iff {r : Result} : isNext r = true ↔ ∃ t, r = .next t := by
  cases r <;> simp [isNext]

@[simp] theorem isNext_next (t : State) : isNext (.next t) = true := rfl
@[simp] theorem isNext_refused (r : Refusal) : isNext (.refused r) = false := rfl

@[simp] theorem isNext_atEnc (s : State) (f : State → Result) :
    isNext (s.atEnc f) = (!s.encBusy && isNext (f s)) := by
  unfold State.atEnc
  cases s.encBusy <;> rfl

@[simp] theorem isNext_atDec (s : State) (f : State → Result) :
    isNext (s.atDec f) = (!s.decBusy && isNext (f s)) := by
  unfold State.atDec
  cases s.decBusy <;> rfl

@[simp] theorem isNext_decodeSlice (s : State) (out : Value → Nat → Delivery) :
    isNext (s.decodeSlice out) = true := by
  rcases s.decodeSlice_cases out with ⟨v, L, -, he⟩ | ⟨m, -, he⟩ <;> rw [he, isNext_next]

@[simp] theorem isNext_takeForm (s : State) (L : Nat) (v : Value) :
    isNext (s.takeForm L v) = !s.decBusy := by
  simp [State.takeForm]

/-! ### Instructions and moves -/

/-- `LEN` answers at an idle encoder, in the domain and above it. -/
theorem isNext_execLen (s : State) : isNext (execLen s) = !s.encBusy := by
  rw [execLen, isNext_atEnc]
  cases lenOf s.vPort <;> simp

/-- `WRITE` answers at an idle encoder, in the domain and above it. -/
theorem isNext_execWrite (s : State) : isNext (execWrite s) = !s.encBusy := by
  rw [execWrite, isNext_atEnc]
  cases lenOf s.vPort <;> simp

/-- A value in the domain needs room in the buffer; one above it does not (R37, R82). -/
theorem isNext_execAppend (s : State) : isNext (execAppend s) = s.accepts .append := by
  rw [execAppend, isNext_atEnc, State.accepts]
  cases lenOf s.vPort with
  | none => rfl
  | some L => cases hr : s.dst.hasRoom L <;> simp [hr]

/-- The `APPEND` that a reset strikes is accepted or refused as any other (R191). -/
theorem isNext_resetInAppend (s : State) : isNext s.resetInAppend = isNext (execAppend s) := by
  rw [State.resetInAppend, execAppend, isNext_atEnc, isNext_atEnc]
  cases lenOf s.vPort with
  | none => rfl
  | some L => cases hr : s.dst.hasRoom L <;> simp [hr]

/-- An instruction answers a next state exactly when it is accepted. -/
theorem isNext_exec (i : Instr) (s : State) : isNext (exec i s) = s.accepts i := by
  cases i with
  | len => exact isNext_execLen s
  | append => exact isNext_execAppend s
  | write => exact isNext_execWrite s
  | parse | peek | read => simp [exec, execParse, execPeek, execRead, State.accepts]
  | taglen | reservedOp7 => rfl
  | vi1 v | vi2 v | vi4 v | vi8 v => exact isNext_takeForm s _ v

/-- A slot that holds no instruction answers only with a failure of an idle decoder (R60, R101, R102). -/
theorem isNext_take_present (s : State) (slot : Slot) :
    isNext (s.take (.present slot)) = s.admits (.present slot) := by
  simp only [State.take, State.admits]
  cases decode slot with
  | ok i => exact isNext_exec i s
  | error r =>
    cases r with
    | notOwned => rfl
    | missing m => simp [rejectSlot]

/-- A move answers a next state exactly when the host keeps the contract with it. -/
theorem isNext_take (s : State) (e : Event) : isNext (s.take e) = s.admits e := by
  cases e with
  | present slot => exact isNext_take_present s slot
  | giveSrc as => cases hb : s.decBusy <;> simp [State.take, State.giveSrc, State.admits, hb]
  | giveSnk bs => cases hb : s.encBusy <;> simp [State.take, State.giveSnk, State.admits, hb]
  | resetInAppend => exact (isNext_resetInAppend s).trans (isNext_execAppend s)
  | driveV | driveB0 | giveSlice | giveDstAsSlice | setCursor | giveDst | srcAnswer | snkAnswer | reset => rfl

/-- Settles O52, by `isNext_take`. -/
theorem moveHasMeaningIffContractKept : Obligations.MoveHasMeaningIffContractKept := by
  intro s e
  rw [← isNext_take, isNext_iff]

/-! ### Reset -/

theorem State.resetUnits_idle (s : State) : s.resetUnits.idle := ⟨rfl, rfl, rfl⟩

/-- The sink as a reset leaves it: with the byte of the unanswered push of a `WRITE`, if it keeps that. -/
def State.snkAfterReset (s : State) (keeps : Bool) : Sink :=
  if s.enc.phase = .pushing ∧ keeps = true then
    { s.snk with contents := s.snk.contents ++ [s.enc.byteAt s.enc.idx] }
  else s.snk

/-- All that a reset does: the units become idle, and the sink decides on the byte in flight. -/
theorem State.resetBlock_eq (s : State) (keeps : Bool) :
    s.resetBlock keeps = (s.withSnk (s.snkAfterReset keeps)).resetUnits := by
  cases hp : s.enc.phase with
  | idle => simp [State.resetBlock, State.encBusy, State.snkAfterReset, hp, State.withSnk]
  | pushing =>
    cases keeps <;>
      simp [State.resetBlock, State.encBusy, State.snkAfterReset, State.sinkMayHold, State.sinkHolds, hp,
        State.withSnk]

/-- At idle units a reset changes nothing alive. -/
theorem State.live_resetUnits {s : State} (h : s.idle) : s.resetUnits.live = s.draw.live := by
  obtain ⟨hr, -, hp⟩ := h
  have hdec : s.idleDec.live = s.dec.live := by
    rw [DecRegs.live_of_idle hr, DecRegs.live_of_idle s.idleDec_reading]
  have henc : s.idleEnc.live = s.enc.live := by
    rw [EncRegs.live_of_idle hp, EncRegs.live_of_idle s.idleEnc_phase]
  have hlive : s.resetUnits.live = { s.draw.live with dec := s.idleDec.live, enc := s.idleEnc.live } := rfl
  rw [hlive, hdec, henc]
  rfl

theorem State.snkAfterReset_idle {s : State} (h : s.idle) (keeps : Bool) : s.snkAfterReset keeps = s.snk := by
  obtain ⟨-, -, hp⟩ := h
  simp [State.snkAfterReset, hp]

/-- Settles O57: the state after is that of `State.resetBlock_eq`. -/
theorem resetAbandonsOperationsInFlight : Obligations.ResetAbandonsOperationsInFlight := by
  intro s keeps es hi
  have hstep : step s = .next ((s.withInbox es).resetBlock keeps) := step_cons hi
  rw [State.resetBlock_eq] at hstep
  refine ⟨_, hstep, State.resetUnits_idle _, rfl, rfl, fun hidle => ?_⟩
  have hsnk : (s.withInbox es).snkAfterReset keeps = s.snk := State.snkAfterReset_idle hidle keeps
  rw [hsnk]
  exact State.live_resetUnits (s := s.withInbox es) hidle

/-! ### Reset in the middle of an `APPEND` -/

@[simp] theorem Space.read_ofBytes (bs : List Byte) (i : Nat) : (Space.ofBytes bs).read i = bs[i]? := by
  rw [← Space.bytes_get, Space.bytes_ofBytes]

/-- An old byte that the new length covers is among the bytes left, whatever the free values are (R191). -/
theorem State.struckBytes_old {s : State} {i : Nat} (hold : i < s.dst.space.len)
    (hnew : i < s.struckBytes.length) : s.struckBytes[i]? = s.dst.space.read i := by
  have hlen : i < Config.freeDstLen s.draws := by simpa [State.struckBytes] using hnew
  have hbytes : i < s.dst.space.bytes.length := by simpa using hold
  rw [← Space.bytes_get, List.getElem?_eq_getElem hbytes]
  simp [State.struckBytes, hlen, List.getElem?_append_left hbytes, List.getElem?_eq_getElem hbytes]

/-- Settles O58: the move has a meaning, and either the value is above the domain and the buffer stays,
or the buffer holds `State.struckBytes`. -/
theorem resetInAppendLeavesOldBytes : Obligations.ResetInAppendLeavesOldBytes := by
  intro s _ hacc
  obtain ⟨t, ht⟩ := (moveHasMeaningIffContractKept s .resetInAppend).2 hacc
  refine ⟨t, ht, ?_⟩
  obtain ⟨-, ⟨-, rfl⟩ | ⟨L, hL, -, rfl⟩⟩ := take_next ht
  · exact ⟨rfl, s.resetUnits_idle, rfl, rfl, rfl, rfl, fun _ => rfl, fun _ _ _ => rfl⟩
  · refine ⟨rfl, State.resetUnits_idle _, rfl, rfl, rfl, rfl, fun hnone => ?_, fun i hold hnew => ?_⟩
    · rw [hL] at hnone
      cases hnone
    · replace hnew : i < (Space.ofBytes s.struckBytes).len := hnew
      rw [Space.len_ofBytes] at hnew
      exact (Space.read_ofBytes _ i).trans (State.struckBytes_old hold hnew)

/-! ### Status codes -/

theorem Status.code_lt (k : Status) : k.code.toNat < 5 := by
  cases k with
  | ok | outOfRange | endOfStream | truncated | io => simp [Status.code]

/-- Settles O60. -/
theorem statusCodes : Obligations.StatusCodes :=
  ⟨rfl, rfl, rfl, rfl, fun _ => rfl, Status.code_lt⟩

end Sys2Proof.Machine
end
